-- ==== Sys2Proof/Word.lean ====
section
/-! DEFINITION. The bit widths of the block: command words, bytes, colours, the phase and glyph words. -/

namespace Sys2Proof

/-- A command word `cmd[31:0]` (R50). -/
abbrev Word := BitVec 32

/-- An operand field or a register byte of the external chip (R51, R16). -/
abbrev Byte := BitVec 8

/-- An entry `{R, G, B}` of the LED colour buffer, R in bits 23:16, G in 15:8, B in 7:0 (R13). -/
abbrev Color := BitVec 24

/-- The value of the result bus `res[23:0]` (R52). -/
abbrev Res := BitVec 24

/-- The animation phase counter, `PHASE_W` = 16 bits (R12). -/
abbrev Phase := BitVec 16

/-- One word of the glyph ROM: bit `k` is LED `k` of a digit zone (R110). -/
abbrev GlyphWord := BitVec 20

end Sys2Proof
end

