-- ==== Sys2Proof/Syntax.lean ====
section
/-! DEFINITION. The twelve commands of the block, one constructor per row of spec/opcode_table.json.
A constructor holds exactly the operand fields that the operation uses (R53): the others are ignored. -/

namespace Sys2Proof

/-- One command with its operands, named as R53 names them. -/
inductive Instr
  /-- DECBCD (R70): `a` = byte, `b` = tensMask, `c` = tensShift. -/
  | decbcd (byte tensMask tensShift : Byte)
  /-- DECSEC (R71): `a` = byte. -/
  | decsec (byte : Byte)
  /-- DECMIN (R72): `a` = byte. -/
  | decmin (byte : Byte)
  /-- DECHRS (R73): `a` = byte. -/
  | dechrs (byte : Byte)
  /-- ENCSEC (R80): `a` = value, `f` = oscillatorEnabled. -/
  | encsec (value : Byte) (oscillatorEnabled : Bool)
  /-- ENCMIN (R81): `a` = value. -/
  | encmin (value : Byte)
  /-- ENCHRS (R82): `a` = value, `f` = use12Hour. -/
  | enchrs (value : Byte) (use12Hour : Bool)
  /-- SETBIT (R83): `a` = byte, `c` = bitIndex, `f` = enabled. -/
  | setbit (byte bitIndex : Byte) (enabled : Bool)
  /-- SPLIT (R114): `a` = value. -/
  | split (value : Byte)
  /-- GLYPH (R115): `a` = digit, `c` = LED-in-zone index. -/
  | glyph (digit index : Byte)
  /-- RENDER (R116): `a` = hours, `b` = minutes, `c` = seconds, `f` = colon lit. -/
  | render (hours minutes seconds : Byte) (colonLit : Bool)
  /-- LEDRD (R118): `c` = global LED index. -/
  | ledrd (index : Byte)
deriving DecidableEq, Repr

end Sys2Proof
end

