-- ==== Sys2Proof/Decode.lean ====
section
/-! DEFINITION. The command word: its fields (R51), the decoder (R54, R55), and after it the encoder
(R51, R54, R58) and the mask of the bits that a command uses (R53). -/

namespace Sys2Proof

/-- `op` = bits 31:28 (R51). -/
def opField (w : Word) : BitVec 4 := w.extractLsb' 28 4

/-- `rsv` = bits 27:25, reserved (R51, R55). -/
def rsvField (w : Word) : BitVec 3 := w.extractLsb' 25 3

/-- `f` = bit 24, the flag operand (R51). -/
def fField (w : Word) : Bool := w.getLsbD 24

/-- `c` = bits 23:16, the third operand (R51). -/
def cField (w : Word) : Byte := w.extractLsb' 16 8

/-- `b` = bits 15:8, the second operand (R51). -/
def bField (w : Word) : Byte := w.extractLsb' 8 8

/-- `a` = bits 7:0, the first operand (R51). -/
def aField (w : Word) : Byte := w.extractLsb' 0 8

/-- Why a word spells no command. -/
inductive DecodeError
  /-- `rsv` is not 0b000 (R55; R56 (b)). -/
  | reservedBits (rsv : BitVec 3)
  /-- `op` is 0xC, 0xD, 0xE or 0xF (R55; R56 (a)). -/
  | reservedOp (op : BitVec 4)
deriving DecidableEq, Repr

/-- The command that `op` selects, with the operands it uses taken from the word (R53, R54). -/
def decodeOp (w : Word) : Except DecodeError Instr :=
  match (opField w).toNat with
  | 0x0 => .ok (.decbcd (aField w) (bField w) (cField w))
  | 0x1 => .ok (.decsec (aField w))
  | 0x2 => .ok (.decmin (aField w))
  | 0x3 => .ok (.dechrs (aField w))
  | 0x4 => .ok (.encsec (aField w) (fField w))
  | 0x5 => .ok (.encmin (aField w))
  | 0x6 => .ok (.enchrs (aField w) (fField w))
  | 0x7 => .ok (.setbit (aField w) (cField w) (fField w))
  | 0x8 => .ok (.split (aField w))
  | 0x9 => .ok (.glyph (aField w) (cField w))
  | 0xA => .ok (.render (aField w) (bField w) (cField w) (fField w))
  | 0xB => .ok (.ledrd (cField w))
  | _ => .error (.reservedOp (opField w))

/-- The decoder: `rsv` must be zero whatever `op` is (R55), then `op` alone selects (R54). -/
def decode (w : Word) : Except DecodeError Instr :=
  if rsvField w = 0#3 then decodeOp w else .error (.reservedBits (rsvField w))

/-- `cmd = {op, rsv, f, c, b, a}` with `rsv` = 0 (R51). -/
def assemble (op : BitVec 4) (f : Bool) (c b a : Byte) : Word :=
  op ++ 0#3 ++ BitVec.ofBool f ++ c ++ b ++ a

/-- The word of a command; fields the operation does not use are 0 (R58). -/
def encode : Instr → Word
  | .decbcd byte mask shift => assemble 0x0 false shift mask byte
  | .decsec byte => assemble 0x1 false 0 0 byte
  | .decmin byte => assemble 0x2 false 0 0 byte
  | .dechrs byte => assemble 0x3 false 0 0 byte
  | .encsec value osc => assemble 0x4 osc 0 0 value
  | .encmin value => assemble 0x5 false 0 0 value
  | .enchrs value h12 => assemble 0x6 h12 0 0 value
  | .setbit byte index enabled => assemble 0x7 enabled index 0 byte
  | .split value => assemble 0x8 false 0 0 value
  | .glyph digit index => assemble 0x9 false index 0 digit
  | .render hours minutes seconds colon => assemble 0xA colon seconds minutes hours
  | .ledrd index => assemble 0xB false index 0 0

/-- The bits of the word that a command reads: `op`, `rsv`, and the operand fields it uses (R53). -/
def usedMask : Instr → Word
  | .decbcd _ _ _ => 0xFEFFFFFF#32
  | .decsec _ | .decmin _ | .dechrs _ | .encmin _ | .split _ => 0xFE0000FF#32
  | .encsec _ _ | .enchrs _ _ => 0xFF0000FF#32
  | .setbit _ _ _ => 0xFFFF00FF#32
  | .glyph _ _ => 0xFEFF00FF#32
  | .render _ _ _ _ => 0xFFFFFFFF#32
  | .ledrd _ => 0xFEFF0000#32

/-- The command word that an opcode-table row's bits spell: `nbits` bits of `w`, every bit above zero.
A word is 32 bits; a number that does not fit one is no command word. -/
def tableWord (nbits w : Nat) : Option Word :=
  if w % 2 ^ nbits < 2 ^ 32 then some (BitVec.ofNat 32 (w % 2 ^ nbits)) else none

/-- The instruction the decoder reads from an opcode-table row's bits (the host's question). -/
def decodeTableWord (nbits w : Nat) : Option Instr :=
  match tableWord nbits w with
  | some cmd => (decode cmd).toOption
  | none => none

end Sys2Proof
end

