-- ==== Sys2Proof/Config.lean ====
section
/-! DEFINITION. What is fixed for one block and open in the spec: the glyph ROM, the zone layout, the
colour oracle, the contents of PHASE and LED right after reset (log 3), and the transport's constants
(log 4). -/

namespace Sys2Proof

/-- The seven zones of the LED buffer, in the order of R112: hours tens, hours ones, minutes tens,
minutes ones, seconds tens, seconds ones, and the colon. -/
inductive Zone
  | ht | ho | mt | mo | st | so | colon
deriving DecidableEq, Repr

/-- `ZONE_LEN` (R112): 20 LEDs in a digit zone, 8 in the colon zone. -/
def Zone.len : Zone → Nat
  | .colon => 8
  | _ => 20

/-- The parameters of R4 with exactly the constraints the spec puts on them. Each field's default only
shows that the constraints can be met together (it is what makes the type inhabited); no value of
`Config.machine` below can be derived from a default. -/
structure Config where
  /-- `GLYPH_ROM` (R110, R111): ten words of twenty bits, open but for two constraints. -/
  glyphRom : Fin 10 → GlyphWord := fun d => if d = 8 then 0xFFFFF#20 else 0#20
  /-- R111 (a): digit 8 has every LED of its zone lit. -/
  glyphRom_eight : glyphRom 8 = 0xFFFFF#20 := by decide
  /-- R111 (b): digit 1 lights a proper subset of the zone. -/
  glyphRom_one : glyphRom 1 ≠ 0xFFFFF#20 := by decide
  /-- `ZONE_BASE` (R112): the first global LED index of each zone. -/
  zoneBase : Zone → Nat := fun z =>
    match z with
    | .ht => 0 | .ho => 20 | .mt => 40 | .mo => 60 | .st => 80 | .so => 100 | .colon => 120
  /-- R112: every zone lies inside 0..127. -/
  zone_inside : ∀ z, zoneBase z + z.len ≤ 128 := by intro z; cases z <;> decide
  /-- R112: two different zones do not overlap. -/
  zone_disjoint : ∀ z z', z ≠ z' →
      zoneBase z + z.len ≤ zoneBase z' ∨ zoneBase z' + z'.len ≤ zoneBase z := by
    intro z z'; cases z <;> cases z' <;> decide
  /-- R112: the zones together cover 0..127. -/
  zone_cover : ∀ i, i < 128 → ∃ z, zoneBase z ≤ i ∧ i < zoneBase z + z.len := by
    intro i hi
    by_cases h1 : i < 20; · exact ⟨.ht, by simp [Zone.len]; omega⟩
    by_cases h2 : i < 40; · exact ⟨.ho, by simp [Zone.len]; omega⟩
    by_cases h3 : i < 60; · exact ⟨.mt, by simp [Zone.len]; omega⟩
    by_cases h4 : i < 80; · exact ⟨.mo, by simp [Zone.len]; omega⟩
    by_cases h5 : i < 100; · exact ⟨.st, by simp [Zone.len]; omega⟩
    by_cases h6 : i < 120; · exact ⟨.so, by simp [Zone.len]; omega⟩
    exact ⟨.colon, by simp [Zone.len]; omega⟩
  /-- `COLOR` (R113): the colour oracle, total and pure, brightness and saturation folded in. -/
  color : Phase → Color := fun _ => 1#24
  /-- R113 (d): a lit LED is never black. -/
  color_ne_black : ∀ x, color x ≠ 0#24 := by intro x; decide
  /-- `PHASE_RESET` (R24): any 16-bit value. -/
  phaseReset : Phase := 0#16
  /-- The unspecified contents of LED before the first accepted RENDER (R24, U9): any values. -/
  ledReset : Vector Color 128 := Vector.replicate 128 0#24
  /-- `RTC_DEV_ADDR` (R90): the fixed bus address of the external chip. -/
  rtcDevAddr : Nat := 0
  /-- `MODE_WRITE` (R90). -/
  modeWrite : Nat := 0
  /-- `MODE_READ` (R90). -/
  modeRead : Nat := 1
  /-- R4: only the distinctness of the two modes matters. -/
  modes_distinct : modeWrite ≠ modeRead := by decide
deriving Inhabited

/-- The parameters of THIS block. Opaque: nothing about it can be proved but the constraints that the
type `Config` carries, so a statement about the machine holds for every admissible choice of them. -/
opaque Config.machine : Config

end Sys2Proof
end

