-- ==== Sys2Proof/Machine/State.lean ====
section
/-! DEFINITION. The block's state (R9, R12, R13), its outputs and its command input as plain data, the
reasons a step can stop, and reset (R24, R150). -/

namespace Sys2Proof.Machine

open Sys2Proof

/-- Why the machine stops with a fault: never. The block raises no exception (R130), so no step answers
`fault`, and the type has no constructor (safe: nothing is left out by it; log 8). -/
inductive Fault
deriving DecidableEq, Repr

/-- Why a step has no meaning. -/
inductive Refusal
  /-- The command has no meaning in this model yet. Raised only by an arm of `exec` that names its
  mnemonic; every arm has a meaning, so no step raises it (safe). -/
  | notModelled (mnemonic : String)
deriving DecidableEq, Repr

/-- What the block drives while a command executes (R52). `res` is a computed value only where `ill` is
false (R56). -/
structure Output where
  /-- `res[23:0]`, the result bus. -/
  res : Res
  /-- `ill`: the command is refused. -/
  ill : Bool
deriving DecidableEq, Repr

/-- The state: `phase` and `led` are all the state the spec gives the block (R9, R10); `out` and `cmds`
are the model's own fields for the outputs and the input of the command port. -/
structure State where
  /-- `PHASE`, the animation phase counter (R12). -/
  phase : Phase
  /-- `LED[0..127]`, the LED colour buffer (R13). -/
  led : Vector Color 128
  /-- `res` and `ill` as the latest step's command drove them; `none` when no command drives them,
  for "neither is held after the command" (R52, R24). Log 2. -/
  out : Option Output
  /-- The command words the host will still present, the next one first (R50, R39 (1)). Log 1. -/
  cmds : List Word
deriving DecidableEq, Repr

/-- The block right after reset (R24, R150): PHASE and LED hold values that no rule constrains (log 3), no
outputs are driven (log 2), and no command has been presented (log 1). -/
def State.reset : State where
  phase := Config.machine.phaseReset
  led := Config.machine.ledReset
  out := none
  cmds := []

end Sys2Proof.Machine
end

