-- ==== Sys2Proof/Machine/Operands.lean ====
section
/-! DEFINITION. Operand and result forms shared by the commands: digits by division by 10 (R86), BCD
fields of a byte (R17 to R19), the packed byte layouts, and zero extension to the result bus (R52). -/

namespace Sys2Proof.Machine

open Sys2Proof

/-- `v div 10` (R86). -/
def tensOf (v : Byte) : Nat := v.toNat / 10

/-- `v mod 10` (R86). -/
def onesOf (v : Byte) : Nat := v.toNat % 10

/-- The ones field, bits 3:0, of a register byte (R17 to R19): 0..15, not limited to a digit. -/
def onesField (byte : Byte) : Nat := (byte.extractLsb' 0 4).toNat

/-- `len` bits of a register byte from bit 4 up: its tens field (R17 to R19). -/
def tensField (len : Nat) (byte : Byte) : Nat := (byte.extractLsb' 4 len).toNat

/-- The value of a tens and a ones digit, exact (R70). -/
def bcdValue (tens ones : Nat) : Nat := tens * 10 + ones

/-- The layout `{flag, tens[2:0], ones[3:0]}` of a seconds or minutes byte (R80, R81). -/
def sixtyByte (flag : Bool) (tens ones : Nat) : Byte :=
  BitVec.ofBool flag ++ BitVec.ofNat 3 tens ++ BitVec.ofNat 4 ones

/-- The layout `{0, 1, merid, tens, ones[3:0]}` of a twelve-hour byte (R82). -/
def twelveHourByte (merid : Bool) (tens ones : Nat) : Byte :=
  0#1 ++ 1#1 ++ BitVec.ofBool merid ++ BitVec.ofNat 1 tens ++ BitVec.ofNat 4 ones

/-- The layout `{0, 0, tens[1:0], ones[3:0]}` of a twenty-four-hour byte (R82). -/
def twentyFourHourByte (tens ones : Nat) : Byte :=
  0#1 ++ 0#1 ++ BitVec.ofNat 2 tens ++ BitVec.ofNat 4 ones

/-- The packed hour form `{0b00, 1, merid, value[3:0]}` (R73). -/
def packedTwelve (merid : Bool) (value : Nat) : Byte :=
  0#2 ++ 1#1 ++ BitVec.ofBool merid ++ BitVec.ofNat 4 value

/-- The one-hot mask `(1 << c) mod 256`: 0 for an index of 8 or more (R83). -/
def bitMask (index : Byte) : Byte := BitVec.ofNat 8 (2 ^ index.toNat)

/-- `zext_24` of a byte (R7, R52). -/
def zextByte (v : Byte) : Res := v.setWidth 24

/-- `zext_24` of an exact number (R7, R85): every number an operation computes fits 24 bits. -/
def zextNat (v : Nat) : Res := BitVec.ofNat 24 v

end Sys2Proof.Machine
end

