-- ==== Sys2Proof/Machine/Ops.lean ====
section
/-! DEFINITION. The named operations over the state: taking the next command from the port, driving the
outputs, refusing a command, and reading and writing the LED buffer. The block has no exception entry
and no return (R130, R136, R137); the nearest thing is `refuseCommand`. -/

namespace Sys2Proof.Machine

open Sys2Proof

/-- The command the host presents now and the state in which it is taken from the port (R50, R39 (1)). -/
def takeCommand (s : State) : Option (Word × State) :=
  match s.cmds with
  | [] => none
  | w :: rest => some (w, { s with cmds := rest })

/-- No command is presented: nothing executes and nothing drives the outputs (R52, R24). Log 1. -/
def idle (s : State) : State := { s with out := none }

/-- A command that is not refused drives its result, with `ill` = 0 (R52). -/
def deliver (v : Res) (s : State) : State := { s with out := some { res := v, ill := false } }

/-- A refused command drives `ill` = 1 and `res` = 0 and changes no state; it is no trap, and the next
command executes normally (R56, R132). Log 5. -/
def refuseCommand (s : State) : State := { s with out := some { res := 0#24, ill := true } }

/-- Read one entry of the LED buffer (R31, R118). -/
def ledRead (s : State) (i : Fin 128) : Color := s.led[i]

/-- Write one entry of the LED buffer (R7). RENDER's indices are always inside (R31, R112). -/
def ledWrite (led : Vector Color 128) (i : Nat) (v : Color) : Vector Color 128 :=
  led.setIfInBounds i v

/-- `PHASE <- (PHASE + 1) mod 2^16` (R12; width and step are the spec's own decision D10, log 7). -/
def advancePhase (p : Phase) : Phase := p + 1#16

/-- Put a command word in front of the port, so that the next step takes it. -/
def presentWord (w : Word) (s : State) : State := { s with cmds := w :: s.cmds }

end Sys2Proof.Machine
end

