-- ==== Sys2Proof/Machine/CodecDecode.lean ====
section
/-! DEFINITION. The CODEC's decode operations DECBCD, DECSEC, DECMIN, DECHRS (40_codec_decode.md): pure
functions of their operands, never refused (R70 to R73). Corner values as the rules' own decisions D5, D6
and D9 have them (log 6, log 7). -/

namespace Sys2Proof.Machine

open Sys2Proof

/-- DECBCD's result (R70): the masked and shifted tens, unbounded, times ten, plus the ones nibble. -/
def decBcd (byte tensMask tensShift : Byte) : Nat :=
  bcdValue ((byte &&& tensMask).toNat >>> tensShift.toNat) (onesField byte)

/-- The value of a seconds or minutes byte, tens in bits 6:4 (R71, R72). -/
def decSixty (byte : Byte) : Nat := bcdValue (tensField 3 byte) (onesField byte)

/-- DECHRS's result (R73): the packed hour form in twelve-hour layout, else the plain value. -/
def decHours (byte : Byte) : Res :=
  if byte.getLsbD 6 then
    zextByte (packedTwelve (byte.getLsbD 5) (bcdValue (tensField 1 byte) (onesField byte)))
  else
    zextNat (bcdValue (tensField 2 byte) (onesField byte))

/-- DECBCD (R70). -/
def execDecbcd (byte tensMask tensShift : Byte) (s : State) : Host.Outcome State Fault Refusal :=
  .next (deliver (zextNat (decBcd byte tensMask tensShift)) s)

/-- DECSEC (R71): bit 7, OSCEN, does not take part. -/
def execDecsec (byte : Byte) (s : State) : Host.Outcome State Fault Refusal :=
  .next (deliver (zextNat (decSixty byte)) s)

/-- DECMIN (R72). -/
def execDecmin (byte : Byte) (s : State) : Host.Outcome State Fault Refusal :=
  .next (deliver (zextNat (decSixty byte)) s)

/-- DECHRS (R73). -/
def execDechrs (byte : Byte) (s : State) : Host.Outcome State Fault Refusal :=
  .next (deliver (decHours byte) s)

end Sys2Proof.Machine
end

