-- ==== Sys2Proof/Machine/CodecEncode.lean ====
section
/-! DEFINITION. The CODEC's encode operations ENCSEC, ENCMIN, ENCHRS and SETBIT (41_codec_encode.md):
pure functions of their operands, never refused (R80 to R83). Each field of a byte keeps the low bits of
the digit computed for it (R85). Corner values as the rules' own decisions D5, D7 and D8 have them
(log 6). -/

namespace Sys2Proof.Machine

open Sys2Proof

/-- The register byte of a seconds or minutes value; `flag` is bit 7 (R80, R81). -/
def encSixty (flag : Bool) (value : Byte) : Byte := sixtyByte flag (tensOf value) (onesOf value)

/-- The register byte of an hours value (R82). The meridiem is the source's heuristic `value > 12`, and
the value is not reduced by 12. -/
def encHours (value : Byte) (use12Hour : Bool) : Byte :=
  if use12Hour then twelveHourByte (decide (12 < value.toNat)) (tensOf value) (onesOf value)
  else twentyFourHourByte (tensOf value) (onesOf value)

/-- The byte with one bit forced to `enabled`; an index of 8 or more addresses no bit (R83). -/
def setBit (byte bitIndex : Byte) (enabled : Bool) : Byte :=
  if enabled then byte ||| bitMask bitIndex else byte &&& ~~~(bitMask bitIndex)

/-- ENCSEC (R80). -/
def execEncsec (value : Byte) (oscillatorEnabled : Bool) (s : State) :
    Host.Outcome State Fault Refusal :=
  .next (deliver (zextByte (encSixty oscillatorEnabled value)) s)

/-- ENCMIN (R81): no flag bit. -/
def execEncmin (value : Byte) (s : State) : Host.Outcome State Fault Refusal :=
  .next (deliver (zextByte (encSixty false value)) s)

/-- ENCHRS (R82). -/
def execEnchrs (value : Byte) (use12Hour : Bool) (s : State) : Host.Outcome State Fault Refusal :=
  .next (deliver (zextByte (encHours value use12Hour)) s)

/-- SETBIT (R83). -/
def execSetbit (byte bitIndex : Byte) (enabled : Bool) (s : State) :
    Host.Outcome State Fault Refusal :=
  .next (deliver (zextByte (setBit byte bitIndex enabled)) s)

end Sys2Proof.Machine
end

