-- ==== Sys2Proof/Machine/Flags.lean ====
section
/-! DEFINITION. The block has no status flags (R15). Its one output bit besides the result is `ill`
(R52); this file holds the operand conditions under which a command is not refused (R56 (c), (d), (e)). -/

namespace Sys2Proof.Machine

open Sys2Proof

/-- GLYPH addresses a bit of the ROM: digit 0..9 and index 0..19 (R115; R56 (c)). -/
abbrev GlyphInTable (digit index : Byte) : Prop := digit.toNat < 10 ∧ index.toNat < 20

/-- Each time field spells two digits 0..9 (R116; R56 (d)). -/
abbrev TimeInTable (hours minutes seconds : Byte) : Prop :=
  hours.toNat < 100 ∧ minutes.toNat < 100 ∧ seconds.toNat < 100

/-- LEDRD addresses an entry of the buffer: index 0..127 (R118; R56 (e)). -/
abbrev LedInBuffer (index : Byte) : Prop := index.toNat < 128

end Sys2Proof.Machine
end

