-- ==== Sys2Proof/Machine/Render.lean ====
section
/-! DEFINITION. The RENDER unit (43_glyph_render.md): the glyph multiplexer, the per-LED colour mapper,
the frame, and the commands SPLIT, GLYPH, RENDER, LEDRD. The frame's functions take the parameters as an
argument, so that they can also be run on the spec's test-only instances; the commands use the block's
own, `Config.machine`. -/

namespace Sys2Proof.Machine

open Sys2Proof

/-- `glyph(d, k)` = `GLYPH_ROM[d][k]` (R110). -/
def glyphBit (cfg : Config) (d : Fin 10) (k : Nat) : Bool := (cfg.glyphRom d).getLsbD k

/-- `ledcolor(p, i, lit)` (R117): black when unlit, else the oracle at `(p + 3*i) mod 2^16`, `i` being
the global LED index. -/
def ledColor (cfg : Config) (p : Phase) (i : Nat) (lit : Bool) : Color :=
  if lit then cfg.color (p + BitVec.ofNat 16 (3 * i)) else 0#24

/-- The tens digit of a time field below 100. -/
def tensDigit (v : Byte) (h : v.toNat < 100) : Fin 10 := ⟨tensOf v, by unfold tensOf; omega⟩

/-- The ones digit of a time field. -/
def onesDigit (v : Byte) : Fin 10 := ⟨onesOf v, Nat.mod_lt _ (by decide)⟩

/-- What one frame shows: the six digits `dig[0..5]` and the colon flag (R116). -/
structure Shown where
  ht : Fin 10
  ho : Fin 10
  mt : Fin 10
  mo : Fin 10
  st : Fin 10
  so : Fin 10
  colon : Bool
deriving DecidableEq, Repr

/-- The six digits of a time and the colon flag (R116). -/
def shownOf (hours minutes seconds : Byte) (colonLit : Bool)
    (h : TimeInTable hours minutes seconds) : Shown where
  ht := tensDigit hours h.1
  ho := onesDigit hours
  mt := tensDigit minutes h.2.1
  mo := onesDigit minutes
  st := tensDigit seconds h.2.2
  so := onesDigit seconds
  colon := colonLit

/-- Whether LED `k` of a zone is lit: the glyph bit of the zone's digit, or the colon flag (R116). -/
def zoneLit (cfg : Config) (t : Shown) (z : Zone) (k : Nat) : Bool :=
  match z with
  | .ht => glyphBit cfg t.ht k
  | .ho => glyphBit cfg t.ho k
  | .mt => glyphBit cfg t.mt k
  | .mo => glyphBit cfg t.mo k
  | .st => glyphBit cfg t.st k
  | .so => glyphBit cfg t.so k
  | .colon => t.colon

/-- The order in which RENDER visits the zones (R116; not observable, R116 corner case 3). -/
def zoneOrder : List Zone := [.ht, .ho, .mt, .mo, .st, .so, .colon]

/-- The writes of one zone: for `k` = 0, 1, …, the index `ZONE_BASE[z] + k` and its colour (R116). -/
def zoneWrites (cfg : Config) (p : Phase) (t : Shown) (z : Zone) : List (Nat × Color) :=
  (List.range z.len).map fun k =>
    (cfg.zoneBase z + k, ledColor cfg p (cfg.zoneBase z + k) (zoneLit cfg t z k))

/-- All writes of one frame, in order (R116). -/
def frameWrites (cfg : Config) (p : Phase) (t : Shown) : List (Nat × Color) :=
  zoneOrder.flatMap (zoneWrites cfg p t)

/-- Carry out a list of LED writes, first one first. -/
def applyWrites (led : Vector Color 128) (ws : List (Nat × Color)) : Vector Color 128 :=
  ws.foldl (fun acc w => ledWrite acc w.1 w.2) led

/-- The buffer after the frame's loops (R116), `p` being the phase already advanced. -/
def renderFrame (cfg : Config) (p : Phase) (t : Shown) (led : Vector Color 128) : Vector Color 128 :=
  applyWrites led (frameWrites cfg p t)

/-- RENDER's effect on the state: advance the phase first, then write the frame with the new phase,
and drive `res` = 0 (R116, R52). -/
def renderState (cfg : Config) (t : Shown) (s : State) : State :=
  deliver 0#24
    { s with
      phase := advancePhase s.phase
      led := renderFrame cfg (advancePhase s.phase) t s.led }

/-- SPLIT's result `{tens[7:0], ones[7:0]}` (R114). -/
def splitValue (value : Byte) : Res :=
  (BitVec.ofNat 8 (tensOf value) ++ BitVec.ofNat 8 (onesOf value) : BitVec 16).setWidth 24

/-- SPLIT (R114). -/
def execSplit (value : Byte) (s : State) : Host.Outcome State Fault Refusal :=
  .next (deliver (splitValue value) s)

/-- GLYPH (R115): refused outside the table. -/
def execGlyph (digit index : Byte) (s : State) : Host.Outcome State Fault Refusal :=
  if h : GlyphInTable digit index then
    .next (deliver ((BitVec.ofBool (glyphBit Config.machine ⟨digit.toNat, h.1⟩ index.toNat)).setWidth 24) s)
  else .next (refuseCommand s)

/-- RENDER (R116): refused when a field is 100 or more. -/
def execRender (hours minutes seconds : Byte) (colonLit : Bool) (s : State) :
    Host.Outcome State Fault Refusal :=
  if h : TimeInTable hours minutes seconds then
    .next (renderState Config.machine (shownOf hours minutes seconds colonLit h) s)
  else .next (refuseCommand s)

/-- LEDRD (R118): refused for an index of 128 or more. -/
def execLedrd (index : Byte) (s : State) : Host.Outcome State Fault Refusal :=
  if h : LedInBuffer index then .next (deliver (ledRead s ⟨index.toNat, h⟩) s)
  else .next (refuseCommand s)

end Sys2Proof.Machine
end

