-- ==== Sys2Proof/Machine/Dispatch.lean ====
section
/-! DEFINITION. One arm per command, each a call of its meaning. -/

namespace Sys2Proof.Machine

open Sys2Proof

def exec (i : Instr) (s : State) : Host.Outcome State Fault Refusal :=
  match i with
  | .decbcd byte mask shift => Sys2Proof.Machine.execDecbcd byte mask shift s
  | .decsec byte => Sys2Proof.Machine.execDecsec byte s
  | .decmin byte => Sys2Proof.Machine.execDecmin byte s
  | .dechrs byte => Sys2Proof.Machine.execDechrs byte s
  | .encsec value osc => Sys2Proof.Machine.execEncsec value osc s
  | .encmin value => Sys2Proof.Machine.execEncmin value s
  | .enchrs value h12 => Sys2Proof.Machine.execEnchrs value h12 s
  | .setbit byte index enabled => Sys2Proof.Machine.execSetbit byte index enabled s
  | .split value => Sys2Proof.Machine.execSplit value s
  | .glyph digit index => Sys2Proof.Machine.execGlyph digit index s
  | .render hours minutes seconds colon => Sys2Proof.Machine.execRender hours minutes seconds colon s
  | .ledrd index => Sys2Proof.Machine.execLedrd index s

end Sys2Proof.Machine
end

