-- ==== Sys2Proof/Machine/Port.lean ====
section
/-! DEFINITION. The command port: what the block does with one presented word (R50, R56). -/

namespace Sys2Proof.Machine

open Sys2Proof

/-- A word that spells no command is refused (R55; R56 (a), (b)); the reason is not reported (R135). -/
def rejectWord (_why : DecodeError) (s : State) : Host.Outcome State Fault Refusal :=
  .next (refuseCommand s)

/-- One presented word causes exactly one operation (R50). -/
def accept (w : Word) (s : State) : Host.Outcome State Fault Refusal :=
  match decode w with
  | .ok i => exec i s
  | .error why => rejectWord why s

/-- `s` with an opcode-table row's word presented next. A number that is no 32-bit word changes nothing. -/
def placeTableWord (s : State) (nbits w : Nat) : State :=
  match tableWord nbits w with
  | some cmd => presentWord cmd s
  | none => s

end Sys2Proof.Machine
end

