-- ==== Sys2Proof/Machine/Step.lean ====
section
/-! DEFINITION. One step of the block: the next presented command executes to completion, or nothing
happens while no command is presented (R50, R39 (1), R166). -/

namespace Sys2Proof.Machine

open Sys2Proof

/-- One step. -/
def step (s : State) : Host.Outcome State Fault Refusal :=
  match takeCommand s with
  | some (w, s') => accept w s'
  | none => .next (idle s)

/-- `s` with an opcode-table row's word where the next step takes its command: first at the port. -/
def State.withFetchWord (s : State) (nbits w : Nat) : State := placeTableWord s nbits w

end Sys2Proof.Machine
end

