-- ==== Sys2Proof/Machine/RtcMap.lean ====
section
/-! DEFINITION. The register map of the external clock chip as the CODEC's encodings use it (R16 to R23,
R37), and the caller's views of the packed hour form (R74). The chip is another device: these are views
of bytes, not state of the block, and nothing here says what byte the chip answers (R33). -/

namespace Sys2Proof.Machine

open Sys2Proof

/-- The six registers the source describes (R16, R37). -/
inductive RtcReg
  | rtcsec | rtcmin | rtchour | rtcwkday | control | osctrim
deriving DecidableEq, Repr

/-- The register's address (R37). -/
def RtcReg.addr : RtcReg → Byte
  | .rtcsec => 0x00#8
  | .rtcmin => 0x01#8
  | .rtchour => 0x02#8
  | .rtcwkday => 0x03#8
  | .control => 0x07#8
  | .osctrim => 0x08#8

/-- `OSCEN`, bit 7 of RTCSEC (R17). -/
def oscen (sec : Byte) : Bool := sec.getLsbD 7

/-- `SECTEN`, bits 6:4 of RTCSEC (R17). -/
def secten (sec : Byte) : BitVec 3 := sec.extractLsb' 4 3

/-- `SECONE`, bits 3:0 of RTCSEC (R17). -/
def secone (sec : Byte) : BitVec 4 := sec.extractLsb' 0 4

/-- `MINTEN`, bits 6:4 of RTCMIN (R18). -/
def minten (min : Byte) : BitVec 3 := min.extractLsb' 4 3

/-- `MINONE`, bits 3:0 of RTCMIN (R18). -/
def minone (min : Byte) : BitVec 4 := min.extractLsb' 0 4

/-- `H12`, bit 6 of RTCHOUR: 1 is twelve-hour mode (R19). -/
def h12 (hour : Byte) : Bool := hour.getLsbD 6

/-- `MERID`, bit 5 of RTCHOUR in twelve-hour mode: 1 is PM (R19). -/
def merid (hour : Byte) : Bool := hour.getLsbD 5

/-- The tens digit of RTCHOUR: bit 4 in twelve-hour mode, bits 5:4 in twenty-four-hour mode (R19). -/
def hrten (hour : Byte) : BitVec 2 :=
  if h12 hour then (hour.extractLsb' 4 1).setWidth 2 else hour.extractLsb' 4 2

/-- `HRONE`, bits 3:0 of RTCHOUR (R19). -/
def hrone (hour : Byte) : BitVec 4 := hour.extractLsb' 0 4

/-- `OSCRUN`, bit 5 of RTCWKDAY, set by the chip (R20). -/
def oscrun (wkday : Byte) : Bool := wkday.getLsbD 5

/-- `PWRFAIL`, bit 4 of RTCWKDAY, set by the chip (R20). -/
def pwrfail (wkday : Byte) : Bool := wkday.getLsbD 4

/-- `VBATEN`, bit 3 of RTCWKDAY (R20). -/
def vbaten (wkday : Byte) : Bool := wkday.getLsbD 3

/-- `OUT`, bit 7 of CONTROL (R21). -/
def mfpOut (control : Byte) : Bool := control.getLsbD 7

/-- `SQWEN`, bit 6 of CONTROL (R21). -/
def sqwen (control : Byte) : Bool := control.getLsbD 6

/-- `ALM1EN`, bit 5 of CONTROL (R21). -/
def alm1en (control : Byte) : Bool := control.getLsbD 5

/-- `ALM0EN`, bit 4 of CONTROL (R21). -/
def alm0en (control : Byte) : Bool := control.getLsbD 4

/-- `EXTOSC`, bit 3 of CONTROL (R21). -/
def extosc (control : Byte) : Bool := control.getLsbD 3

/-- `CRSTRIM`, bit 2 of CONTROL (R21). -/
def crstrim (control : Byte) : Bool := control.getLsbD 2

/-- `SQWFS`, bits 1:0 of CONTROL (R21). -/
def sqwfs (control : Byte) : BitVec 2 := control.extractLsb' 0 2

/-- `TRIMSIGN`, bit 7 of OSCTRIM (R22). -/
def trimsign (trim : Byte) : Bool := trim.getLsbD 7

/-- `TRIMVAL`, bits 6:0 of OSCTRIM (R22). -/
def trimval (trim : Byte) : BitVec 7 := trim.extractLsb' 0 7

/-- The trim byte `{sign, magnitude[6:0]}` that a caller of SETTRIM assembles (R103, R22). -/
def trimByte (sign : Bool) (magnitude : BitVec 7) : Byte := BitVec.ofBool sign ++ magnitude

/-- What a caller reads out of a packed hour byte (R74). -/
inductive HourView
  /-- Twelve-hour form: PM or AM, and the value nibble. -/
  | twelve (pm : Bool) (value : BitVec 4)
  /-- Twenty-four-hour form: the byte is the value. -/
  | twentyFour (value : Byte)
deriving DecidableEq, Repr

/-- `hr_is12`, `hr_pm`, `hr_val12` and `hr_val24` in one view; sound only for the packed form of a valid
register byte (R74, R158). -/
def hourView (p : Byte) : HourView :=
  if p.getLsbD 5 then .twelve (p.getLsbD 4) (p.extractLsb' 0 4) else .twentyFour p

end Sys2Proof.Machine
end

