-- ==== Sys2Proof/Machine/Driver.lean ====
section
/-! DEFINITION. The driver layer (42_driver_sequences.md): the host's sequences of transport primitives
and block commands. They are not commands of the block (R59); the host runs them. The external chip and
the transport answer as they like: every answer is an input (R33), held as a list that a run
consumes (log 9, log 10). -/

namespace Sys2Proof.Machine.Driver

open Sys2Proof Sys2Proof.Machine

/-- What the environment answers to a primitive that gets an answer (R90, R33). -/
inductive Answer
  /-- `open` succeeds. -/
  | opened
  /-- `open` fails with the transport's code, an opaque value (R131, U15). -/
  | openFailed (code : Nat)
  /-- A read primitive gives this byte. -/
  | byte (b : Byte)
deriving DecidableEq, Repr

/-- The result of `open` (R90). -/
inductive OpenResult
  | ok
  | err (code : Nat)
deriving DecidableEq, Repr

/-- One thing the host did: a primitive of RegisterTransport (R90), a block command with the outputs it
drove (R50), a triple sent to LedTransport, or the suspension of event dispatch (R104). -/
inductive Event
  | busOpen (device mode : Nat) (result : OpenResult)
  | writeByte (b : Byte)
  | readByteWithAck (b : Byte)
  | readByteNoAck (b : Byte)
  | busClose
  | command (w : Word) (driven : Output)
  | sendLed (r g b : Byte)
  | suspendEvents
  | resumeEvents
deriving DecidableEq, Repr

/-- Why a run of the driver has no meaning; each is the spec's own `refuse` or a missing input (safe). -/
inductive Stop
  /-- A register operation before PROBE has returned Ok (R105, R154, U8). -/
  | beforeProbe
  /-- An `open` fails that no sequence examines. After a successful PROBE the spec gives such a run no
  meaning (R105, U8). That the stop is also raised before one, by a bare RD or WR or by PROBE's own RD or
  WR, is the model's choice (DESIGN CHOICE, safe; log 12). -/
  | deviceLost (code : Nat)
  /-- The list of answers holds no answer for the primitive, or one of another kind. -/
  | noAnswer
  /-- The block drove no outputs, or gave no meaning to the command; it never does either. -/
  | blockStopped
deriving DecidableEq, Repr

/-- The record of a run: the block, the answers still to come, what happened so far (oldest first),
whether the latest PROBE returned Ok, and whether event dispatch is suspended. -/
structure System where
  block : State
  answers : List Answer
  trace : List Event
  probed : Bool
  eventsSuspended : Bool
deriving DecidableEq, Repr

/-- A sequence the host runs: from a record to a result and a record, or a stop. -/
abbrev Run (α : Type) := StateT System (Except Stop) α

/-- Record that something happened. -/
def emit (e : Event) : Run Unit :=
  modify fun sys => { sys with trace := sys.trace ++ [e] }

/-- Take the environment's next answer. -/
def nextAnswer : Run Answer := do
  let sys ← get
  match sys.answers with
  | [] => throw .noAnswer
  | answer :: rest => do
    set { sys with answers := rest }
    return answer

/-- `open(RTC_DEV_ADDR, mode)` (R90): the one primitive that can report failure. -/
def busOpen (mode : Nat) : Run OpenResult := do
  match (← nextAnswer) with
  | .opened => do
    emit (.busOpen Config.machine.rtcDevAddr mode .ok)
    return .ok
  | .openFailed code => do
    emit (.busOpen Config.machine.rtcDevAddr mode (.err code))
    return .err code
  | .byte _ => throw .noAnswer

/-- An `open` whose result the sequence does not examine: the device is assumed present (R91, R92, R105).
A failing one stops the run. After a successful PROBE that is the spec's `refuse` (U8). Before one, in a
bare RD or WR or in PROBE's own RD or WR, the spec says nothing of it, and the stop is the model's choice
(DESIGN CHOICE, safe; log 12). -/
def busOpenPresent (mode : Nat) : Run Unit := do
  match (← busOpen mode) with
  | .ok => return ()
  | .err code => throw (.deviceLost code)

/-- `writeByte(b)` (R90): no status. -/
def writeByte (b : Byte) : Run Unit := emit (.writeByte b)

/-- The byte a read primitive gets from the environment. -/
def answeredByte : Run Byte := do
  match (← nextAnswer) with
  | .byte b => return b
  | .opened => throw .noAnswer
  | .openFailed _ => throw .noAnswer

/-- `readByteWithAck()` (R90); no sequence of the spec uses it (R91). -/
def readByteWithAck : Run Byte := do
  let b ← answeredByte
  emit (.readByteWithAck b)
  return b

/-- `readByteNoAck()` (R90). -/
def readByteNoAck : Run Byte := do
  let b ← answeredByte
  emit (.readByteNoAck b)
  return b

/-- `close()` (R90): no status. -/
def busClose : Run Unit := emit .busClose

/-- Present one command word to the block and read the outputs it drives (R50, R52). -/
def issueWord (w : Word) : Run Output := fun sys =>
  match accept w sys.block with
  | .next block =>
    match block.out with
    | some driven =>
      .ok (driven, { sys with block := block, trace := sys.trace ++ [.command w driven] })
    | none => .error .blockStopped
  | .fault _ => .error .blockStopped
  | .refused _ => .error .blockStopped

/-- Present a command's word. -/
def issue (i : Instr) : Run Output := issueWord (encode i)

/-- `res[7:0]`, the register byte of an encode operation (R53). -/
def resByte (o : Output) : Byte := o.res.setWidth 8

/-- RD(reg) (R91). A failing `open` stops it (log 12). -/
def rd (reg : Byte) : Run Byte := do
  busOpenPresent Config.machine.modeWrite
  writeByte reg
  busOpenPresent Config.machine.modeRead
  let v ← readByteNoAck
  busClose
  return v

/-- WR(reg, v) (R92). A failing `open` stops it (log 12). -/
def wr (reg v : Byte) : Run Unit := do
  busOpenPresent Config.machine.modeWrite
  writeByte reg
  writeByte v
  busClose

/-- What a sequence gives its caller. -/
inductive Result
  /-- Nothing, or PROBE's Ok. -/
  | done
  /-- PROBE's Err(code), the transport's own code (R93, R131). -/
  | probeFailed (code : Nat)
  /-- The value that a GET sequence or RD returns. -/
  | value (v : Res)
  /-- The outputs of a command that the host issued by itself. -/
  | outputs (o : Output)
deriving DecidableEq, Repr

/-- Note the latest PROBE's outcome (R154). -/
def noteProbe (ok : Bool) : Run Unit := modify fun sys => { sys with probed := ok }

/-- PROBE() (R93; D18): the only sequence that examines an `open`, its first one. Its RD and WR stop at a
failing `open` (log 12). That a failed PROBE takes an earlier Ok back is the model's choice (log 10). -/
def probe : Run Result := do
  match (← busOpen Config.machine.modeWrite) with
  | .err code => do
    noteProbe false
    return .probeFailed code
  | .ok => do
    busClose
    let s ← rd RtcReg.rtcsec.addr
    let o ← issue (.setbit s 7#8 true)
    wr RtcReg.rtcsec.addr (resByte o)
    noteProbe true
    return .done

/-- R154: a register operation is used only after PROBE has returned Ok. -/
def afterProbe : Run Unit := do
  let sys ← get
  if sys.probed then return () else throw .beforeProbe

/-- GETSEC() = DECSEC(RD(0x00)) (R94). -/
def getsec : Run Result := do
  afterProbe
  let b ← rd RtcReg.rtcsec.addr
  let o ← issue (.decsec b)
  return .value o.res

/-- GETMIN() = DECMIN(RD(0x01)) (R95). -/
def getmin : Run Result := do
  afterProbe
  let b ← rd RtcReg.rtcmin.addr
  let o ← issue (.decmin b)
  return .value o.res

/-- GETHRS() = DECHRS(RD(0x02)), the packed form (R96). -/
def gethrs : Run Result := do
  afterProbe
  let b ← rd RtcReg.rtchour.addr
  let o ← issue (.dechrs b)
  return .value o.res

/-- SETSEC(v, osc) = WR(0x00, ENCSEC(v, osc)) (R97). -/
def setsec (v : Byte) (osc : Bool) : Run Result := do
  afterProbe
  let o ← issue (.encsec v osc)
  wr RtcReg.rtcsec.addr (resByte o)
  return .done

/-- SETMIN(v) = WR(0x01, ENCMIN(v)) (R98). -/
def setmin (v : Byte) : Run Result := do
  afterProbe
  let o ← issue (.encmin v)
  wr RtcReg.rtcmin.addr (resByte o)
  return .done

/-- SETHRS(v, h12) = WR(0x02, ENCHRS(v, h12)) (R99). -/
def sethrs (v : Byte) (use12Hour : Bool) : Run Result := do
  afterProbe
  let o ← issue (.enchrs v use12Hour)
  wr RtcReg.rtchour.addr (resByte o)
  return .done

/-- GETCTL() = RD(0x07) (R100). -/
def getctl : Run Result := do
  afterProbe
  let b ← rd RtcReg.control.addr
  return .value (zextByte b)

/-- SETCTL(v) = WR(0x07, v) (R101). -/
def setctl (v : Byte) : Run Result := do
  afterProbe
  wr RtcReg.control.addr v
  return .done

/-- SETVBAT(en) (R102): read, force bit 3, write back. -/
def setvbat (enabled : Bool) : Run Result := do
  afterProbe
  let s ← rd RtcReg.rtcwkday.addr
  let o ← issue (.setbit s 3#8 enabled)
  wr RtcReg.rtcwkday.addr (resByte o)
  return .done

/-- SETTRIM(v) = WR(0x08, v) (R103). -/
def settrim (v : Byte) : Run Result := do
  afterProbe
  wr RtcReg.osctrim.addr v
  return .done

/-- Suspend or resume the dispatch of asynchronous events (R104, R134). -/
def suspendEvents (suspend : Bool) : Run Unit := do
  emit (if suspend then .suspendEvents else .resumeEvents)
  modify fun sys => { sys with eventsSuspended := suspend }

/-- Hand one entry over: LEDRD(i), then its triple to LedTransport (R104). -/
def handOver (i : Byte) : Run Unit := do
  let t ← issue (.ledrd i)
  emit (.sendLed (t.res.extractLsb' 16 8) (t.res.extractLsb' 8 8) (t.res.extractLsb' 0 8))

/-- Hand over the entries of the listed indices, in order. -/
def handOverAll : List Nat → Run Unit
  | [] => return ()
  | i :: rest => do
    handOver (BitVec.ofNat 8 i)
    handOverAll rest

/-- FLUSH() (R104): indices 0 to 127 ascending, event dispatch suspended throughout. -/
def flush : Run Result := do
  suspendEvents true
  handOverAll (List.range 128)
  suspendEvents false
  return .done

/-- What the host can do: present a command word, or run one of the fourteen pseudo-operations (R59). -/
inductive HostOp
  | command (w : Word)
  | rd (reg : Byte)
  | wr (reg v : Byte)
  | probe
  | getsec
  | getmin
  | gethrs
  | setsec (v : Byte) (osc : Bool)
  | setmin (v : Byte)
  | sethrs (v : Byte) (use12Hour : Bool)
  | getctl
  | setctl (v : Byte)
  | setvbat (enabled : Bool)
  | settrim (v : Byte)
  | flush
deriving DecidableEq, Repr

/-- Run one host operation. -/
def runOp : HostOp → Run Result
  | .command w => do return .outputs (← issueWord w)
  | .rd reg => do return .value (zextByte (← Driver.rd reg))
  | .wr reg v => do
    Driver.wr reg v
    return .done
  | .probe => Driver.probe
  | .getsec => Driver.getsec
  | .getmin => Driver.getmin
  | .gethrs => Driver.gethrs
  | .setsec v osc => Driver.setsec v osc
  | .setmin v => Driver.setmin v
  | .sethrs v use12Hour => Driver.sethrs v use12Hour
  | .getctl => Driver.getctl
  | .setctl v => Driver.setctl v
  | .setvbat enabled => Driver.setvbat enabled
  | .settrim v => Driver.settrim v
  | .flush => Driver.flush

/-- Run host operations in order, one complete before the next (R39 (3)); their results in order. -/
def runOps : List HostOp → Run (List Result)
  | [] => return []
  | op :: rest => do
    let r ← runOp op
    return r :: (← runOps rest)

end Sys2Proof.Machine.Driver
end

