-- ==== Sys2Proof/WellFormed.lean ====
section
/-! DEFINITION. The checks on a command's operand values: an operand that selects a table entry must
select one that exists (R56 (c), (d), (e)). Every other command is well formed at every operand value,
the codec and SPLIT being total (R56, last sentence but one). -/

namespace Sys2Proof

/-- What can be wrong with a command's operands. -/
inductive IllFormed
  /-- GLYPH of a digit of 10 or more (R56 (c)). -/
  | glyphDigit
  /-- GLYPH of an LED-in-zone index of 20 or more (R56 (c)). -/
  | glyphIndex
  /-- RENDER of hours of 100 or more (R56 (d)). -/
  | renderHours
  /-- RENDER of minutes of 100 or more (R56 (d)). -/
  | renderMinutes
  /-- RENDER of seconds of 100 or more (R56 (d)). -/
  | renderSeconds
  /-- LEDRD of an index of 128 or more (R56 (e)). -/
  | ledrdIndex
deriving DecidableEq, Repr

/-- Every check that the command fails. -/
def Instr.problems : Instr → List IllFormed
  | .glyph d k =>
    (if 10 ≤ d.toNat then [.glyphDigit] else []) ++ (if 20 ≤ k.toNat then [.glyphIndex] else [])
  | .render h m s _ =>
    (if 100 ≤ h.toNat then [.renderHours] else []) ++ (if 100 ≤ m.toNat then [.renderMinutes] else [])
      ++ (if 100 ≤ s.toNat then [.renderSeconds] else [])
  | .ledrd i => if 128 ≤ i.toNat then [.ledrdIndex] else []
  | .decbcd _ _ _ | .decsec _ | .decmin _ | .dechrs _ | .encsec _ _ | .encmin _ | .enchrs _ _
  | .setbit _ _ _ | .split _ => []

/-- A well-formed command: it fails no check, so the block accepts it. -/
def Instr.wellFormed (i : Instr) : Bool := i.problems.isEmpty

end Sys2Proof
end

