-- ==== Sys2Proof/Safety.lean ====
section
/-! DEFINITION. What a safe run is, and the terms the statements are written in. -/

namespace Sys2Proof.Machine

open Sys2Proof

/-- The command executes, is not refused, gives `v` on the result bus, and changes nothing else: PHASE,
every LED entry and the commands still to come are as before. -/
def Delivers (i : Instr) (s : State) (v : Res) : Prop :=
  exec i s = .next { s with out := some { res := v, ill := false } }

/-- The command is refused: `ill` = 1, `res` = 0, and nothing else changes (R56). -/
def IsRefused (i : Instr) (s : State) : Prop :=
  exec i s = .next { s with out := some { res := 0#24, ill := true } }

/-- The value a command computes: its `res`, if it executes and is not refused. -/
def computes (i : Instr) (s : State) : Option Res :=
  match exec i s with
  | .next t => t.out.bind fun o => if o.ill then none else some o.res
  | .fault _ => none
  | .refused _ => none

/-- R56 (a) to (e): the words that the block refuses. -/
def RefusedWord (w : Word) : Prop :=
  12 ≤ w.toNat / 2 ^ 28                                                               -- (a)
  ∨ w.toNat / 2 ^ 25 % 8 ≠ 0                                                          -- (b)
  ∨ (w.toNat / 2 ^ 28 = 9 ∧ (10 ≤ w.toNat % 2 ^ 8 ∨ 20 ≤ w.toNat / 2 ^ 16 % 2 ^ 8))   -- (c)
  ∨ (w.toNat / 2 ^ 28 = 10 ∧ (100 ≤ w.toNat % 2 ^ 8 ∨ 100 ≤ w.toNat / 2 ^ 8 % 2 ^ 8   -- (d)
      ∨ 100 ≤ w.toNat / 2 ^ 16 % 2 ^ 8))
  ∨ (w.toNat / 2 ^ 28 = 11 ∧ 128 ≤ w.toNat / 2 ^ 16 % 2 ^ 8)                          -- (e)

/-- A safe step presents no word that the block refuses. -/
def SafeStep (s : State) : Prop := ∀ w rest, s.cmds = w :: rest → ¬ RefusedWord w

/-- `led` is one whole frame at phase `p`: every entry shows its LED of one and the same time and colon
flag (R116, R119). -/
def IsFrame (cfg : Config) (p : Phase) (t : Shown) (led : Vector Color 128) : Prop :=
  ∀ z k, k < z.len → led[cfg.zoneBase z + k]? =
    some (if zoneLit cfg t z k then cfg.color (BitVec.ofNat 16 (p.toNat + 3 * (cfg.zoneBase z + k)))
      else 0#24)

/-- No frame is ever torn: PHASE and LED are as reset left them, or LED is one whole frame at the current
PHASE (R13, R116). -/
def WholeFrame (s : State) : Prop :=
  (s.phase = Config.machine.phaseReset ∧ s.led = Config.machine.ledReset)
  ∨ ∃ t, IsFrame Config.machine s.phase t s.led

/-- The outputs are lawful: a refused command drives `res` = 0 (R56). -/
def LawfulOutputs (s : State) : Prop := ∀ o, s.out = some o → o.ill = true → o.res = 0#24

/-- The invariant of the block. -/
structure Inv (s : State) : Prop where
  wholeFrame : WholeFrame s
  lawfulOutputs : LawfulOutputs s

end Sys2Proof.Machine
end

