-- ==== Sys2Proof/Certificates/Slice0/Obligations.lean ====
section
/-! DEFINITION. The statements for the provers. Results are written in the arithmetic of the spec's
rules, not with the model's own functions. -/

open Sys2Proof Sys2Proof.Machine

/-! ### CODEC decode -/

/-- R70, whole: DECBCD's encoding, its result for every operand, exact and at most 2565; nothing else
changes and it is never refused. Shifts of 8 or more and results above 255 are the rule's own decisions
D5 and D6 (log 6, log 7). -/
def Obligations.DecbcdGivesMaskedTensPlusOnes : Prop :=
  (∀ (a b c : Byte) (s : State),
    Delivers (.decbcd a b c) s
      (BitVec.ofNat 24 ((a.toNat &&& b.toNat) / 2 ^ c.toNat * 10 + a.toNat % 16)))
  ∧ (∀ a b c : Byte, (a.toNat &&& b.toNat) / 2 ^ c.toNat * 10 + a.toNat % 16 ≤ 2565)
  ∧ (∀ w : Word, w &&& 0xFE000000#32 = 0x00000000#32 →
    decode w = .ok (.decbcd (w.extractLsb' 0 8) (w.extractLsb' 8 8) (w.extractLsb' 16 8)))

/-- R71: DECSEC's encoding and result; it is DECBCD with mask 0x70 and shift 4, and bit 7 does not
affect it. -/
def Obligations.DecsecGivesTensPlusOnes : Prop :=
  (∀ (a : Byte) (s : State),
    Delivers (.decsec a) s (BitVec.ofNat 24 (a.toNat / 16 % 8 * 10 + a.toNat % 16))
    ∧ exec (.decsec a) s = exec (.decbcd a 0x70#8 4#8) s
    ∧ exec (.decsec a) s = exec (.decsec (a ||| 0x80#8)) s)
  ∧ (∀ w : Word, w &&& 0xFE000000#32 = 0x10000000#32 → decode w = .ok (.decsec (w.extractLsb' 0 8)))

/-- R72: DECMIN's encoding and result; bit 7 does not affect it. -/
def Obligations.DecminGivesTensPlusOnes : Prop :=
  (∀ (a : Byte) (s : State),
    Delivers (.decmin a) s (BitVec.ofNat 24 (a.toNat / 16 % 8 * 10 + a.toNat % 16))
    ∧ exec (.decmin a) s = exec (.decmin (a ||| 0x80#8)) s)
  ∧ (∀ w : Word, w &&& 0xFE000000#32 = 0x20000000#32 → decode w = .ok (.decmin (w.extractLsb' 0 8)))

/-- R73: DECHRS's encoding and the packed hour form it returns in both layouts. Twelve-hour values above
15 are the spec's own decision D9 (log 6). -/
def Obligations.DechrsGivesPackedHourForm : Prop :=
  (∀ (a : Byte) (s : State), a.toNat / 64 % 2 = 1 →
    Delivers (.dechrs a) s (BitVec.ofNat 24
      (0x20 + a.toNat / 32 % 2 * 0x10 + (a.toNat / 16 % 2 * 10 + a.toNat % 16) % 16)))
  ∧ (∀ (a : Byte) (s : State), a.toNat / 64 % 2 = 0 →
    Delivers (.dechrs a) s (BitVec.ofNat 24 (a.toNat / 16 % 4 * 10 + a.toNat % 16)))
  ∧ (∀ w : Word, w &&& 0xFE000000#32 = 0x30000000#32 → decode w = .ok (.dechrs (w.extractLsb' 0 8)))

/-- How the decode operations are related to one another, and that a decode result depends on the
operands alone: R75, which the spec marks as derived from R70 to R73. -/
def Obligations.DecodeFamilyProperties : Prop :=
  ∀ (a : Byte) (s : State),
    computes (.decsec a) s = computes (.decmin a) s
    ∧ computes (.decsec a) s = computes (.decbcd a 0x70#8 4#8) s
    ∧ computes (.decsec a) s = computes (.decsec (a &&& 0x7F#8)) s
    ∧ computes (.dechrs a) s = computes (.dechrs (a &&& 0x7F#8)) s
    ∧ (a.getLsbD 6 = false → computes (.dechrs a) s = computes (.decbcd a 0x30#8 4#8) s)
    ∧ (a.getLsbD 6 = true → computes (.dechrs a) s =
        (computes (.decbcd a 0x10#8 4#8) s).map fun r =>
          BitVec.ofNat 24 (0x20 + (if a.getLsbD 5 then 0x10 else 0) + r.toNat % 16))
    ∧ ∀ (b c : Byte) (s' : State),
        computes (.decbcd a b c) s = computes (.decbcd a b c) s'
        ∧ computes (.decsec a) s = computes (.decsec a) s'
        ∧ computes (.decmin a) s = computes (.decmin a) s'
        ∧ computes (.dechrs a) s = computes (.dechrs a) s'

/-- R74 with R73: for a valid hours register byte the caller's view of what DECHRS returns gives back the
register's mode, meridiem and hour; the marker is reliable there. -/
def Obligations.HourViewReadsBackValidHours : Prop :=
  ∀ (a : Byte) (s : State),
    (h12 a = true → (hrten a).toNat * 10 + (hrone a).toNat ∈ [1, 2, 3, 4, 5, 6, 7, 8, 9, 10, 11, 12] →
      (computes (.dechrs a) s).map (fun r => hourView (r.setWidth 8)) =
        some (.twelve (merid a) (BitVec.ofNat 4 ((hrten a).toNat * 10 + (hrone a).toNat))))
    ∧ (h12 a = false → (hrten a).toNat * 10 + (hrone a).toNat ≤ 23 →
      (computes (.dechrs a) s).map (fun r => hourView (r.setWidth 8)) =
        some (.twentyFour (BitVec.ofNat 8 ((hrten a).toNat * 10 + (hrone a).toNat))))

/-! ### CODEC encode -/

/-- R80: ENCSEC's encoding and the byte it packs for every value and flag. Values of 80 and more are the
rule's own decision D7 (log 6). -/
def Obligations.EncsecPacksSeconds : Prop :=
  (∀ (a : Byte) (f : Bool) (s : State),
    Delivers (.encsec a f) s
      (BitVec.ofNat 24 (f.toNat * 0x80 + a.toNat / 10 % 8 * 0x10 + a.toNat % 10)))
  ∧ (∀ w : Word, w &&& 0xFE000000#32 = 0x40000000#32 →
    decode w = .ok (.encsec (w.extractLsb' 0 8) (w.getLsbD 24)))

/-- R81: ENCMIN's encoding and the byte it packs; it is ENCSEC without the flag. Values of
80 and more are the rule's own decision D7 (log 6). -/
def Obligations.EncminPacksMinutes : Prop :=
  (∀ (a : Byte) (s : State),
    Delivers (.encmin a) s (BitVec.ofNat 24 (a.toNat / 10 % 8 * 0x10 + a.toNat % 10))
    ∧ exec (.encmin a) s = exec (.encsec a false) s)
  ∧ (∀ w : Word, w &&& 0xFE000000#32 = 0x50000000#32 → decode w = .ok (.encmin (w.extractLsb' 0 8)))

/-- R82: ENCHRS's encoding and the byte it packs in both layouts, the meridiem heuristic kept.
Twelve-hour values of 0 and above 12 are the rule's own decision D8 (log 6). -/
def Obligations.EnchrsPacksHours : Prop :=
  (∀ (a : Byte) (s : State),
    Delivers (.enchrs a true) s (BitVec.ofNat 24
      (0x40 + (if a.toNat > 12 then 1 else 0) * 0x20 + a.toNat / 10 % 2 * 0x10 + a.toNat % 10)))
  ∧ (∀ (a : Byte) (s : State),
    Delivers (.enchrs a false) s (BitVec.ofNat 24 (a.toNat / 10 % 4 * 0x10 + a.toNat % 10)))
  ∧ (∀ w : Word, w &&& 0xFE000000#32 = 0x60000000#32 →
    decode w = .ok (.enchrs (w.extractLsb' 0 8) (w.getLsbD 24)))

/-- R83: SETBIT's encoding; the addressed bit of the byte becomes `enabled`, every other bit appears
unchanged, and an index of 8 or more changes nothing, which is the rule's own decision D5 (log 6). -/
def Obligations.SetbitForcesOneBit : Prop :=
  (∀ (a c : Byte) (f : Bool) (s : State), ∃ r : Byte,
    Delivers (.setbit a c f) s (BitVec.ofNat 24 r.toNat)
    ∧ ∀ i, i < 8 → r.getLsbD i = if i = c.toNat then f else a.getLsbD i)
  ∧ (∀ w : Word, w &&& 0xFE000000#32 = 0x70000000#32 →
    decode w = .ok (.setbit (w.extractLsb' 0 8) (w.extractLsb' 16 8) (w.getLsbD 24)))

/-- R83, corner cases 2, 3 and 5: SETBIT is idempotent, setting and then clearing a bit clears it alone,
and the result does not depend on the addressed bit's old value. -/
def Obligations.SetbitIsIdempotent : Prop :=
  ∀ (a c : Byte) (f g : Bool) (s s' : State),
    (computes (.setbit a c f) s).bind (fun r => computes (.setbit (r.setWidth 8) c g) s') =
      computes (.setbit a c g) s
    ∧ (c.toNat < 8 → a.getLsbD c.toNat = false →
      (computes (.setbit a c true) s).bind (fun r => computes (.setbit (r.setWidth 8) c false) s') =
        some (BitVec.ofNat 24 a.toNat))

/-- Every round trip on its exact range, its failure at the first value past the range, and the other
direction: R87, which the spec marks as derived from R80 to R82 and R71 to R73. The values past the
ranges are the spec's own decisions D7 and D8 (log 6). -/
def Obligations.CodecRoundTrips : Prop :=
  (∀ (v : Byte) (f : Bool) (s s' : State), v.toNat < 80 →
    (computes (.encsec v f) s).bind (fun r => computes (.decsec (r.setWidth 8)) s') =
      some (BitVec.ofNat 24 v.toNat))
  ∧ (∀ (v : Byte) (s s' : State), v.toNat < 80 →
    (computes (.encmin v) s).bind (fun r => computes (.decmin (r.setWidth 8)) s') =
      some (BitVec.ofNat 24 v.toNat))
  ∧ (∀ (v : Byte) (s s' : State), v.toNat < 40 →
    (computes (.enchrs v false) s).bind (fun r => computes (.dechrs (r.setWidth 8)) s') =
      some (BitVec.ofNat 24 v.toNat))
  ∧ (∀ (v : Byte) (s s' : State), 1 ≤ v.toNat → v.toNat ≤ 12 →
    (computes (.enchrs v true) s).bind (fun r => computes (.dechrs (r.setWidth 8)) s') =
      some (BitVec.ofNat 24 (0x20 + v.toNat)))
  ∧ (∀ s s' : State,
    computes (.encsec 80#8 false) s = some 0x00#24 ∧ computes (.encmin 80#8) s = some 0x00#24
    ∧ computes (.decsec 0x00#8) s' = some 0#24 ∧ computes (.decmin 0x00#8) s' = some 0#24
    ∧ computes (.enchrs 40#8 false) s = some 0x00#24 ∧ computes (.dechrs 0x00#8) s' = some 0#24
    ∧ computes (.enchrs 13#8 true) s = some 0x73#24 ∧ computes (.dechrs 0x73#8) s' = some 0x3D#24)
  ∧ (∀ (b : Byte) (s s' : State),
    (computes (.decsec b) s).bind (fun r => computes (.encsec (r.setWidth 8) (b.getLsbD 7)) s') =
      some (BitVec.ofNat 24 b.toNat) ↔ b.toNat % 16 ≤ 9)

/-- R82 corner case 1 with R161: for 1..12 the twelve-hour byte says AM and reads back as the value, and
forcing bit 5 of it with SETBIT gives the PM form of the same hour. -/
def Obligations.TwelveHourBytesReadBack : Prop :=
  ∀ (v : Byte) (s s' s'' : State), 1 ≤ v.toNat → v.toNat ≤ 12 →
    (∃ b : Byte, computes (.enchrs v true) s = some (BitVec.ofNat 24 b.toNat)
      ∧ h12 b = true ∧ merid b = false ∧ (hrten b).toNat * 10 + (hrone b).toNat = v.toNat)
    ∧ ((computes (.enchrs v true) s).bind fun r =>
        (computes (.setbit (r.setWidth 8) 5#8 true) s').bind fun r' =>
          computes (.dechrs (r'.setWidth 8)) s'') = some (BitVec.ofNat 24 (0x30 + v.toNat))

/-- R10, R85, R151: what the CODEC operations and SPLIT compute depends on no state, and they compute
something in every state. -/
def Obligations.CodecAndSplitDependOnNoState : Prop :=
  ∀ (i : Instr) (s s' : State),
    (∀ d k, i ≠ .glyph d k) → (∀ h m x f, i ≠ .render h m x f) → (∀ k, i ≠ .ledrd k) →
      ∃ v, Delivers i s v ∧ Delivers i s' v

/-! ### RENDER unit -/

/-- R114: SPLIT's encoding and its result, tens in bits 15:8 and ones in bits 7:0. -/
def Obligations.SplitGivesTensAndOnes : Prop :=
  (∀ (a : Byte) (s : State),
    Delivers (.split a) s (BitVec.ofNat 24 (a.toNat / 10 * 0x100 + a.toNat % 10)))
  ∧ (∀ w : Word, w &&& 0xFE000000#32 = 0x80000000#32 → decode w = .ok (.split (w.extractLsb' 0 8)))

/-- R115: GLYPH's encoding; inside the table it gives the bit of the ROM word, outside it is refused. -/
def Obligations.GlyphReadsRomBit : Prop :=
  (∀ (d : Fin 10) (k : Fin 20) (s : State),
    Delivers (.glyph (BitVec.ofNat 8 d.val) (BitVec.ofNat 8 k.val)) s
      (if (Config.machine.glyphRom d)[k] then 1#24 else 0#24))
  ∧ (∀ (a c : Byte) (s : State), 10 ≤ a.toNat ∨ 20 ≤ c.toNat → IsRefused (.glyph a c) s)
  ∧ (∀ w : Word, w &&& 0xFE000000#32 = 0x90000000#32 →
    decode w = .ok (.glyph (w.extractLsb' 0 8) (w.extractLsb' 16 8)))

/-- R111 (a) and (b) as GLYPH shows them: every LED of digit 8 is lit, some LED of digit 1 is not. -/
def Obligations.DigitEightAllLitDigitOneNot : Prop :=
  ∀ s : State,
    (∀ k : Byte, k.toNat < 20 → Delivers (.glyph 8#8 k) s 1#24)
    ∧ ∃ k : Byte, k.toNat < 20 ∧ Delivers (.glyph 1#8 k) s 0#24

/-- R116 with R117: RENDER's encoding; with every field below 100 it advances PHASE by one modulo 2^16,
writes every entry of every zone from the new phase, the digits, the colon flag, the ROM and the oracle,
drives `res` = 0 and leaves the commands still to come; with a field of 100 or more it is refused. -/
def Obligations.RenderWritesTheFrame : Prop :=
  (∀ (h m x : Byte) (f : Bool) (s : State) (dh : h.toNat < 100) (dm : m.toNat < 100) (dx : x.toNat < 100),
    ∃ t : State, exec (.render h m x f) s = .next t
      ∧ t.phase.toNat = (s.phase.toNat + 1) % 2 ^ 16
      ∧ t.out = some { res := 0#24, ill := false }
      ∧ t.cmds = s.cmds
      ∧ (∀ (z : Zone) (d : Fin 10) (k : Fin 20),
          (z = .ht ∧ d.val = h.toNat / 10 ∨ z = .ho ∧ d.val = h.toNat % 10
            ∨ z = .mt ∧ d.val = m.toNat / 10 ∨ z = .mo ∧ d.val = m.toNat % 10
            ∨ z = .st ∧ d.val = x.toNat / 10 ∨ z = .so ∧ d.val = x.toNat % 10) →
          t.led[Config.machine.zoneBase z + k.val]? =
            some (if (Config.machine.glyphRom d)[k] then
              Config.machine.color (BitVec.ofNat 16 (t.phase.toNat + 3 * (Config.machine.zoneBase z + k.val)))
              else 0#24))
      ∧ (∀ k : Fin 8, t.led[Config.machine.zoneBase .colon + k.val]? =
          some (if f then
            Config.machine.color
              (BitVec.ofNat 16 (t.phase.toNat + 3 * (Config.machine.zoneBase .colon + k.val)))
            else 0#24)))
  ∧ (∀ (h m x : Byte) (f : Bool) (s : State),
    100 ≤ h.toNat ∨ 100 ≤ m.toNat ∨ 100 ≤ x.toNat → IsRefused (.render h m x f) s)
  ∧ (∀ w : Word, w &&& 0xFE000000#32 = 0xA0000000#32 →
    decode w = .ok (.render (w.extractLsb' 0 8) (w.extractLsb' 8 8) (w.extractLsb' 16 8) (w.getLsbD 24)))

/-- R119 (c), which the spec marks as derived: the number of non-black entries after RENDER is the number of lit bits of the six digits'
ROM words, plus 8 if the colon is lit. -/
def Obligations.FrameLightsExactlyTheGlyphBits : Prop :=
  ∀ (h m x : Byte) (f : Bool) (s t : State), h.toNat < 100 → m.toNat < 100 → x.toNat < 100 →
    exec (.render h m x f) s = .next t →
      t.led.toList.countP (fun v => v ≠ 0#24) =
        ([h.toNat / 10, h.toNat % 10, m.toNat / 10, m.toNat % 10, x.toNat / 10, x.toNat % 10].map
          fun d => (List.range 20).countP fun k =>
            (Config.machine.glyphRom (Fin.ofNat 10 d)).getLsbD k).sum
        + (if f then 8 else 0)

/-- R117, last sentence: after RENDER an entry is black exactly when its LED is unlit; every entry lies
at exactly one place of one zone (R112). -/
def Obligations.EntryBlackExactlyWhenUnlit : Prop :=
  ∀ (h m x : Byte) (f : Bool) (s t : State) (ok : TimeInTable h m x), exec (.render h m x f) s = .next t →
    ∀ i : Fin 128, ∃ z k, k < z.len ∧ Config.machine.zoneBase z + k = i.val
      ∧ (∀ z' k', k' < z'.len → Config.machine.zoneBase z' + k' = i.val → z' = z ∧ k' = k)
      ∧ (t.led[i] = 0#24 ↔ zoneLit Config.machine (shownOf h m x f ok) z k = false)

/-- The spec's example of R116 and its vector table: 88:88:88 with the colon lit from any phase lights all
128 entries, whatever the ROM and the zone layout. -/
def Obligations.AllEightsLightEveryLed : Prop :=
  ∀ s : State, ∃ t : State, exec (.render 88#8 88#8 88#8 true) s = .next t
    ∧ t.phase.toNat = (s.phase.toNat + 1) % 65536
    ∧ ∀ i : Fin 128, t.led[i] = Config.machine.color (BitVec.ofNat 16 (s.phase.toNat + 1 + 3 * i.val))
        ∧ t.led[i] ≠ 0#24

/-- R13, R116 corner case 5: nothing of the previous frame survives. RENDER from two states with the same
PHASE gives the same buffer, whatever the buffers were. -/
def Obligations.NothingOfThePreviousFrameSurvives : Prop :=
  ∀ (h m x : Byte) (f : Bool) (s s' t t' : State), TimeInTable h m x → s.phase = s'.phase →
    exec (.render h m x f) s = .next t → exec (.render h m x f) s' = .next t' →
      t.led = t'.led ∧ t.phase = t'.phase

/-- R118: LEDRD's encoding; it gives the addressed entry and changes nothing; an index of 128 or more is
refused. -/
def Obligations.LedrdReadsTheBuffer : Prop :=
  (∀ (i : Fin 128) (s : State), Delivers (.ledrd (BitVec.ofNat 8 i.val)) s s.led[i])
  ∧ (∀ (c : Byte) (s : State), 128 ≤ c.toNat → IsRefused (.ledrd c) s)
  ∧ (∀ w : Word, w &&& 0xFE000000#32 = 0xB0000000#32 → decode w = .ok (.ledrd (w.extractLsb' 16 8)))

/-- An LEDRD after any commands of which none is a RENDER gives the entry that the buffer held before them
(rests on R118 and R39 (2)). Where a RENDER wrote the buffer before, that is the frame's entry. Where none
has, the spec leaves the value open, and that it stays one and the same is the model's choice (log 3).
RENDERs among the commands, refused ones too, are left to OnlyAcceptedRenderWritesState. -/
def Obligations.LedrdReadsTheUnchangedEntry : Prop :=
  ∀ (is : List Instr) (i : Fin 128) (s t : State),
    (∀ j ∈ is, ∀ h m x f, j ≠ .render h m x f) →
    is.foldlM (fun u j => match exec j u with
      | .next u' => some u'
      | .fault _ => none
      | .refused _ => none) s = some t →
    computes (.ledrd (BitVec.ofNat 8 i.val)) t = some s.led[i]

/-- R12: only a RENDER that is not refused writes PHASE, adding one modulo 2^16 (65535 is followed by 0),
and what any command drives on the outputs does not depend on PHASE. -/
def Obligations.PhaseCountsAcceptedFrames : Prop :=
  ∀ (i : Instr) (s : State),
    (∃ t : State, exec i s = .next t ∧ t.phase.toNat =
      match i with
      | .render h m x _ =>
        if h.toNat < 100 ∧ m.toNat < 100 ∧ x.toNat < 100 then (s.phase.toNat + 1) % 65536
        else s.phase.toNat
      | .decbcd _ _ _ | .decsec _ | .decmin _ | .dechrs _ | .encsec _ _ | .encmin _ | .enchrs _ _
      | .setbit _ _ _ | .split _ | .glyph _ _ | .ledrd _ => s.phase.toNat)
    ∧ ∀ (p : Phase) (t t' : State), exec i s = .next t → exec i { s with phase := p } = .next t' →
        t.out = t'.out

/-- R13, R15, R31: a command that changes PHASE or any LED entry is a RENDER whose fields are all below
100; every other command leaves both as they are, and no command touches the commands to come. -/
def Obligations.OnlyAcceptedRenderWritesState : Prop :=
  ∀ (i : Instr) (s t : State), exec i s = .next t →
    t.cmds = s.cmds
    ∧ ((t.phase ≠ s.phase ∨ ∃ k : Fin 128, t.led[k] ≠ s.led[k]) →
      ∃ h m x f, i = .render h m x f ∧ h.toNat < 100 ∧ m.toNat < 100 ∧ x.toNat < 100)

/-! ### Encoding, refusal, steps -/

/-- R56, whole: a presented word is refused in exactly the cases (a) to (e); a refused command drives
`ill` = 1 and `res` = 0, keeps PHASE and every LED entry, and the next command is taken as otherwise. -/
def Obligations.RefusedInExactlyTheListedCases : Prop :=
  ∀ (w : Word) (rest : List Word) (s : State), s.cmds = w :: rest →
    ∃ (t : State) (o : Output), step s = .next t ∧ t.out = some o ∧ t.cmds = rest
      ∧ (o.ill = true ↔ RefusedWord w)
      ∧ (o.ill = true → o.res = 0#24 ∧ t.phase = s.phase ∧ t.led = s.led)

/-- R55: every word with `rsv` other than 0, whatever its `op`, and every word with `op` of 0xC to 0xF
is refused by spelling, and no other word is. -/
def Obligations.ReservedWordsAreTheWholeReservedSpace : Prop :=
  (∀ w : Word, (∃ why, decode w = .error why) ↔ (w.extractLsb' 25 3 ≠ 0#3 ∨ 12 ≤ (w.extractLsb' 28 4).toNat))
  ∧ ∀ (w : Word) (rest : List Word) (s : State), s.cmds = w :: rest →
      (w.extractLsb' 25 3 ≠ 0#3 ∨ 12 ≤ (w.extractLsb' 28 4).toNat) →
      step s = .next { s with cmds := rest, out := some { res := 0#24, ill := true } }

/-- R135: a command that meets several cases at once has the same outcome as one that meets one: all
refused words have one outcome in one state. -/
def Obligations.EveryRefusalLooksTheSame : Prop :=
  ∀ (w w' : Word) (rest : List Word) (s : State), RefusedWord w → RefusedWord w' →
    step { s with cmds := w :: rest } = step { s with cmds := w' :: rest }

/-- A well-formed command is exactly one that the block does not refuse by value (R56 (c) to (e)). -/
def Obligations.WellFormedExactlyWhenAccepted : Prop :=
  ∀ (i : Instr) (s : State), i.wellFormed = true ↔ ∃ v, computes i s = some v

/-- Decode and encode agree: every command, with every operand at every value, is read back from its
word, the word has no reserved bit, and it presents the command at the port. -/
def Obligations.DecodeOfEncode : Prop :=
  ∀ (i : Instr) (s : State) (rest : List Word),
    decode (encode i) = .ok i
    ∧ decodeTableWord 32 (encode i).toNat = some i
    ∧ step { s with cmds := encode i :: rest } = exec i { s with cmds := rest }

/-- R53: a word that decodes is its command's word on the bits the command uses, and any value of the
other bits spells the same command. -/
def Obligations.UnusedFieldsAreIgnored : Prop :=
  ∀ (w : Word) (i : Instr), decode w = .ok i →
    encode i = w &&& usedMask i ∧ ∀ w' : Word, w' &&& usedMask i = w &&& usedMask i → decode w' = .ok i

/-- R58, the written examples. -/
def Obligations.ExampleWordsSpellTheirCommands : Prop :=
  encode (.encsec 59#8 true) = 0x4100003B#32 ∧ decode 0x4100003B#32 = .ok (.encsec 59#8 true)
  ∧ encode (.decbcd 0x59#8 0x70#8 4#8) = 0x00047059#32
  ∧ decode 0x00047059#32 = .ok (.decbcd 0x59#8 0x70#8 4#8)
  ∧ encode (.setbit 0x31#8 3#8 true) = 0x71030031#32
  ∧ decode 0x71030031#32 = .ok (.setbit 0x31#8 3#8 true)
  ∧ encode (.render 12#8 34#8 56#8 true) = 0xA138220C#32
  ∧ decode 0xA138220C#32 = .ok (.render 12#8 34#8 56#8 true)
  ∧ encode (.ledrd 0#8) = 0xB0000000#32 ∧ decode 0xB0000000#32 = .ok (.ledrd 0#8)

/-- A step runs the command that the presented word spells, in the state in which that word, and nothing
else, has been taken from the port. -/
def Obligations.StepRunsThePresentedCommand : Prop :=
  ∀ (w : Word) (rest : List Word) (i : Instr) (s : State), s.cmds = w :: rest → decode w = .ok i →
    step s = exec i { s with cmds := rest }

/-- R50, R130, R166: every step completes, in every state: no fault, no stop; one command at most is
taken, and the outputs are driven exactly when a command was presented. What a step does with no command
presented is the model's choice (log 1, log 2). -/
def Obligations.EveryStepCompletes : Prop :=
  ∀ s : State, ∃ t : State, step s = .next t ∧ t.cmds = s.cmds.tail
    ∧ (t.out.isSome = true ↔ s.cmds ≠ [])

/-- The model's choice (log 1): with no command presented a step changes no state and drives nothing. -/
def Obligations.NoCommandNoEffect : Prop :=
  ∀ s : State, s.cmds = [] → step s = .next { s with out := none }

/-- R24, R150, R151: reset leaves PHASE and LED at the open parameters and drives no output, and from
reset the first presented command executes at once. The open values are those of log 3; that a command is
presented by `withFetchWord` is the model's choice (log 1). -/
def Obligations.ResetStateIsReady : Prop :=
  State.reset.phase = Config.machine.phaseReset ∧ State.reset.led = Config.machine.ledReset
  ∧ State.reset.out = none
  ∧ ∀ i : Instr, step (State.reset.withFetchWord 32 (encode i).toNat) = exec i State.reset

/-- The invariant is kept by every step: LED is as reset left it or one whole frame at the current PHASE,
and a refused command drives `res` = 0. -/
def Obligations.StepKeepsWholeFrames : Prop :=
  ∀ s t : State, Inv s → step s = .next t → Inv t

/-- The invariant holds right after reset. -/
def Obligations.ResetHasWholeFrame : Prop := Inv State.reset

/-! ### Driver sequences -/

open Sys2Proof.Machine.Driver in
/-- R91: the primitives of RD in order, and the byte it returns; a failing `open` is not examined, the
model gives the run no meaning (R105, log 10). -/
def Obligations.RdReadsOneByte : Prop :=
  ∀ (reg b : Byte) (sys : System) (rest : List Answer),
    sys.answers = .opened :: .opened :: .byte b :: rest →
    (rd reg).run sys = .ok (b, { sys with
      answers := rest
      trace := sys.trace ++
        [.busOpen Config.machine.rtcDevAddr Config.machine.modeWrite .ok, .writeByte reg,
         .busOpen Config.machine.rtcDevAddr Config.machine.modeRead .ok, .readByteNoAck b, .busClose] })

open Sys2Proof.Machine.Driver in
/-- R92: the primitives of WR in order. -/
def Obligations.WrWritesOneByte : Prop :=
  ∀ (reg v : Byte) (sys : System) (rest : List Answer),
    sys.answers = .opened :: rest →
    (wr reg v).run sys = .ok ((), { sys with
      answers := rest
      trace := sys.trace ++
        [.busOpen Config.machine.rtcDevAddr Config.machine.modeWrite .ok, .writeByte reg,
         .writeByte v, .busClose] })

open Sys2Proof.Machine.Driver in
/-- Rests on R93 and R131: PROBE, when every `open` succeeds, reads register 0x00, sets bit 7 (OSCEN) of
what it read and nothing else, writes it back and returns Ok; when its first `open` fails it returns the
transport's code and sends nothing more. That the record then says that no PROBE has returned Ok
(`probed := false`) is the model's choice (log 10). -/
def Obligations.ProbeSetsTheOscillatorBit : Prop :=
  (∀ (b : Byte) (sys : System) (rest : List Answer),
    sys.answers = .opened :: .opened :: .opened :: .byte b :: .opened :: rest →
    ∃ v : Byte, oscen v = true ∧ (∀ i, i < 7 → v.getLsbD i = b.getLsbD i) ∧
    (runOp .probe).run sys = .ok (.done, { sys with
      block := { sys.block with out := some { res := BitVec.ofNat 24 v.toNat, ill := false } }
      answers := rest
      probed := true
      trace := sys.trace ++
        [.busOpen Config.machine.rtcDevAddr Config.machine.modeWrite .ok, .busClose,
         .busOpen Config.machine.rtcDevAddr Config.machine.modeWrite .ok, .writeByte 0x00#8,
         .busOpen Config.machine.rtcDevAddr Config.machine.modeRead .ok, .readByteNoAck b, .busClose,
         .command (0x71070000#32 + b.setWidth 32) { res := BitVec.ofNat 24 v.toNat, ill := false },
         .busOpen Config.machine.rtcDevAddr Config.machine.modeWrite .ok, .writeByte 0x00#8,
         .writeByte v, .busClose] }))
  ∧ (∀ (code : Nat) (sys : System) (rest : List Answer),
    sys.answers = .openFailed code :: rest →
    (runOp .probe).run sys = .ok (.probeFailed code, { sys with
      answers := rest
      probed := false
      trace := sys.trace ++
        [.busOpen Config.machine.rtcDevAddr Config.machine.modeWrite (.err code)] }))

open Sys2Proof.Machine.Driver in
/-- R94, R95, R96, R100: after a successful PROBE the GET sequences read their register and return its
decoded value, in the formulas of R71, R72, R73, or the byte as it is. -/
def Obligations.GetSequencesDecodeTheAnsweredByte : Prop :=
  ∀ (b : Byte) (sys : System) (rest : List Answer), sys.probed = true →
    sys.answers = .opened :: .opened :: .byte b :: rest →
    let reads := fun reg : Byte =>
      [Event.busOpen Config.machine.rtcDevAddr Config.machine.modeWrite .ok, .writeByte reg,
       .busOpen Config.machine.rtcDevAddr Config.machine.modeRead .ok, .readByteNoAck b, .busClose]
    let sixty := BitVec.ofNat 24 (b.toNat / 16 % 8 * 10 + b.toNat % 16)
    let hours := BitVec.ofNat 24 (if b.toNat / 64 % 2 = 1 then
        0x20 + b.toNat / 32 % 2 * 0x10 + (b.toNat / 16 % 2 * 10 + b.toNat % 16) % 16
      else b.toNat / 16 % 4 * 10 + b.toNat % 16)
    (runOp .getsec).run sys = .ok (.value sixty, { sys with
      block := { sys.block with out := some { res := sixty, ill := false } }
      answers := rest
      trace := sys.trace ++ reads 0x00#8 ++
        [.command (0x10000000#32 + b.setWidth 32) { res := sixty, ill := false }] })
    ∧ (runOp .getmin).run sys = .ok (.value sixty, { sys with
      block := { sys.block with out := some { res := sixty, ill := false } }
      answers := rest
      trace := sys.trace ++ reads 0x01#8 ++
        [.command (0x20000000#32 + b.setWidth 32) { res := sixty, ill := false }] })
    ∧ (runOp .gethrs).run sys = .ok (.value hours, { sys with
      block := { sys.block with out := some { res := hours, ill := false } }
      answers := rest
      trace := sys.trace ++ reads 0x02#8 ++
        [.command (0x30000000#32 + b.setWidth 32) { res := hours, ill := false }] })
    ∧ (runOp .getctl).run sys = .ok (.value (b.setWidth 24), { sys with
      answers := rest
      trace := sys.trace ++ reads 0x07#8 })

open Sys2Proof.Machine.Driver in
/-- R97, R98, R99, R101, R103: after a successful PROBE the SET sequences write the encoded byte of R80,
R81, R82, or the byte as given, to their register. -/
def Obligations.SetSequencesWriteTheEncodedByte : Prop :=
  ∀ (v : Byte) (f : Bool) (sys : System) (rest : List Answer), sys.probed = true →
    sys.answers = .opened :: rest →
    let writes := fun (reg : Byte) (n : Nat) =>
      [Event.busOpen Config.machine.rtcDevAddr Config.machine.modeWrite .ok, .writeByte reg,
       .writeByte (BitVec.ofNat 8 n), .busClose]
    let gives := fun (w : Word) (n : Nat) => Event.command w { res := BitVec.ofNat 24 n, ill := false }
    let drives := fun n : Nat => { sys.block with out := some { res := BitVec.ofNat 24 n, ill := false } }
    let sec := f.toNat * 0x80 + v.toNat / 10 % 8 * 0x10 + v.toNat % 10
    let min := v.toNat / 10 % 8 * 0x10 + v.toNat % 10
    let hour := if f then
        0x40 + (if v.toNat > 12 then 1 else 0) * 0x20 + v.toNat / 10 % 2 * 0x10 + v.toNat % 10
      else v.toNat / 10 % 4 * 0x10 + v.toNat % 10
    (runOp (.setsec v f)).run sys = .ok (.done, { sys with
      block := drives sec, answers := rest
      trace := sys.trace ++ [gives (encode (.encsec v f)) sec] ++ writes 0x00#8 sec })
    ∧ (runOp (.setmin v)).run sys = .ok (.done, { sys with
      block := drives min, answers := rest
      trace := sys.trace ++ [gives (encode (.encmin v)) min] ++ writes 0x01#8 min })
    ∧ (runOp (.sethrs v f)).run sys = .ok (.done, { sys with
      block := drives hour, answers := rest
      trace := sys.trace ++ [gives (encode (.enchrs v f)) hour] ++ writes 0x02#8 hour })
    ∧ (runOp (.setctl v)).run sys = .ok (.done, { sys with
      answers := rest, trace := sys.trace ++ writes 0x07#8 v.toNat })
    ∧ (runOp (.settrim v)).run sys = .ok (.done, { sys with
      answers := rest, trace := sys.trace ++ writes 0x08#8 v.toNat })

open Sys2Proof.Machine.Driver in
/-- R102: SETVBAT reads register 0x03, changes bit 3 of what it read to `en` and no other bit (so OSCRUN
and PWRFAIL survive), and writes it back. -/
def Obligations.SetvbatPreservesTheOtherBits : Prop :=
  ∀ (en : Bool) (b : Byte) (sys : System) (rest : List Answer), sys.probed = true →
    sys.answers = .opened :: .opened :: .byte b :: .opened :: rest →
    ∃ v : Byte, vbaten v = en ∧ oscrun v = oscrun b ∧ pwrfail v = pwrfail b
      ∧ (∀ i, i < 8 → i ≠ 3 → v.getLsbD i = b.getLsbD i)
      ∧ (runOp (.setvbat en)).run sys = .ok (.done, { sys with
        block := { sys.block with out := some { res := BitVec.ofNat 24 v.toNat, ill := false } }
        answers := rest
        trace := sys.trace ++
          [.busOpen Config.machine.rtcDevAddr Config.machine.modeWrite .ok, .writeByte 0x03#8,
           .busOpen Config.machine.rtcDevAddr Config.machine.modeRead .ok, .readByteNoAck b, .busClose,
           .command (encode (.setbit b 3#8 en)) { res := BitVec.ofNat 24 v.toNat, ill := false },
           .busOpen Config.machine.rtcDevAddr Config.machine.modeWrite .ok, .writeByte 0x03#8,
           .writeByte v, .busClose] })

open Sys2Proof.Machine.Driver in
/-- R104: FLUSH suspends event dispatch, hands the entries 0, 1, …, 127 over in this order, each read by
one LEDRD and sent as its red, green and blue bytes, and resumes dispatch; nothing else happens in
between, and PHASE and LED stay as they are. -/
def Obligations.FlushHandsOverTheBufferInOrder : Prop :=
  ∀ sys : System, (runOp .flush).run sys = .ok (.done, { sys with
    block := { sys.block with out := some { res := sys.block.led[127], ill := false } }
    eventsSuspended := false
    trace := sys.trace ++ [.suspendEvents] ++
      (List.finRange 128).flatMap (fun i : Fin 128 =>
        [.command (0xB0000000#32 + BitVec.ofNat 32 (i.val * 0x10000)) { res := sys.block.led[i], ill := false },
         .sendLed (sys.block.led[i].extractLsb' 16 8) (sys.block.led[i].extractLsb' 8 8)
           (sys.block.led[i].extractLsb' 0 8)])
      ++ [.resumeEvents] })

open Sys2Proof.Machine.Driver in
/-- R154, R105: a register operation before a successful PROBE has no meaning, and neither has a register
operation whose first `open` fails after it; the two stops are the model's names for the spec's `refuse`
(U8, log 10). An operation's later `open`s are not covered here. -/
def Obligations.RegisterOperationsNeedASuccessfulProbe : Prop :=
  (∀ (op : HostOp) (sys : System), sys.probed = false →
    (op = .getsec ∨ op = .getmin ∨ op = .gethrs ∨ (∃ v f, op = .setsec v f) ∨ (∃ v, op = .setmin v)
      ∨ (∃ v f, op = .sethrs v f) ∨ op = .getctl ∨ (∃ v, op = .setctl v) ∨ (∃ f, op = .setvbat f)
      ∨ ∃ v, op = .settrim v) →
    (runOp op).run sys = .error .beforeProbe)
  ∧ ∀ (op : HostOp) (code : Nat) (sys : System) (rest : List Answer), sys.probed = true →
    sys.answers = .openFailed code :: rest →
    (op = .getsec ∨ op = .getmin ∨ op = .gethrs ∨ (∃ v f, op = .setsec v f) ∨ (∃ v, op = .setmin v)
      ∨ (∃ v f, op = .sethrs v f) ∨ op = .getctl ∨ (∃ v, op = .setctl v) ∨ (∃ f, op = .setvbat f)
      ∨ ∃ v, op = .settrim v) →
    (runOp op).run sys = .error (.deviceLost code)

open Sys2Proof.Machine.Driver in
/-- R36, R104, R131: no sequence of the host writes PHASE or LED; only a RENDER word that it presents
does, so the driver layer never tears a frame. -/
def Obligations.SequencesNeverWriteTheBuffer : Prop :=
  ∀ (op : HostOp) (sys sys' : System) (r : Result), (∀ w, op ≠ .command w) →
    (runOp op).run sys = .ok (r, sys') →
    sys'.block.phase = sys.block.phase ∧ sys'.block.led = sys.block.led
      ∧ sys'.block.cmds = sys.block.cmds ∧ sys.trace <+: sys'.trace
end

