-- ==== Sys2Proof/Laws/Decode.lean ====
section
/-! SUPPORT. The fields of a command word as numbers, the fields of an assembled word, and the decoder's
mask. -/

namespace Sys2Proof

/-- Concatenation in arithmetic: the high part counts `2^m`. -/
theorem toNat_append_add {n m : Nat} (x : BitVec n) (y : BitVec m) :
    (x ++ y).toNat = x.toNat * 2 ^ m + y.toNat := by
  rw [BitVec.toNat_append, ← Nat.shiftLeft_add_eq_or_of_lt y.isLt, Nat.shiftLeft_eq]

theorem opField_toNat (w : Word) : (opField w).toNat = w.toNat / 2 ^ 28 := by
  have h := w.isLt
  simp only [opField, BitVec.extractLsb'_toNat, Nat.shiftRight_eq_div_pow]
  omega

theorem rsvField_toNat (w : Word) : (rsvField w).toNat = w.toNat / 2 ^ 25 % 8 := by
  simp only [rsvField, BitVec.extractLsb'_toNat, Nat.shiftRight_eq_div_pow]

theorem cField_toNat (w : Word) : (cField w).toNat = w.toNat / 2 ^ 16 % 2 ^ 8 := by
  simp only [cField, BitVec.extractLsb'_toNat, Nat.shiftRight_eq_div_pow]

theorem bField_toNat (w : Word) : (bField w).toNat = w.toNat / 2 ^ 8 % 2 ^ 8 := by
  simp only [bField, BitVec.extractLsb'_toNat, Nat.shiftRight_eq_div_pow]

theorem aField_toNat (w : Word) : (aField w).toNat = w.toNat % 2 ^ 8 := by
  simp only [aField, BitVec.extractLsb'_toNat, Nat.shiftRight_zero]

theorem fField_toNat (w : Word) : (fField w).toNat = w.toNat / 2 ^ 24 % 2 := by
  simp only [fField, BitVec.getLsbD, Nat.testBit_eq_decide_div_mod_eq]
  rcases Nat.mod_two_eq_zero_or_one (w.toNat / 2 ^ 24) with h | h <;> rw [h] <;> rfl

/-- An assembled word as a number (R51). -/
theorem assemble_toNat (op : BitVec 4) (f : Bool) (c b a : Byte) :
    (assemble op f c b a).toNat =
      op.toNat * 2 ^ 28 + f.toNat * 2 ^ 24 + c.toNat * 2 ^ 16 + b.toNat * 2 ^ 8 + a.toNat := by
  simp only [assemble, toNat_append_add, BitVec.toNat_ofBool, BitVec.toNat_ofNat]
  omega

@[simp] theorem opField_assemble (op : BitVec 4) (f : Bool) (c b a : Byte) :
    opField (assemble op f c b a) = op := by
  have hf := f.toNat_lt
  apply BitVec.eq_of_toNat_eq
  rw [opField_toNat, assemble_toNat]
  omega

@[simp] theorem rsvField_assemble (op : BitVec 4) (f : Bool) (c b a : Byte) :
    rsvField (assemble op f c b a) = 0#3 := by
  have hf := f.toNat_lt
  apply BitVec.eq_of_toNat_eq
  rw [rsvField_toNat, assemble_toNat, BitVec.toNat_ofNat]
  omega

@[simp] theorem fField_assemble (op : BitVec 4) (f : Bool) (c b a : Byte) :
    fField (assemble op f c b a) = f := by
  have hf := f.toNat_lt
  have h : (fField (assemble op f c b a)).toNat = f.toNat := by
    rw [fField_toNat, assemble_toNat]
    omega
  cases hx : fField (assemble op f c b a) <;> cases f <;> simp_all

@[simp] theorem cField_assemble (op : BitVec 4) (f : Bool) (c b a : Byte) :
    cField (assemble op f c b a) = c := by
  apply BitVec.eq_of_toNat_eq
  rw [cField_toNat, assemble_toNat]
  omega

@[simp] theorem bField_assemble (op : BitVec 4) (f : Bool) (c b a : Byte) :
    bField (assemble op f c b a) = b := by
  apply BitVec.eq_of_toNat_eq
  rw [bField_toNat, assemble_toNat]
  omega

@[simp] theorem aField_assemble (op : BitVec 4) (f : Bool) (c b a : Byte) :
    aField (assemble op f c b a) = a := by
  apply BitVec.eq_of_toNat_eq
  rw [aField_toNat, assemble_toNat]
  omega

/-- Every word with `rsv` = 0 is assembled from its fields (R51). -/
theorem assemble_fields (w : Word) (h : rsvField w = 0#3) :
    assemble (opField w) (fField w) (cField w) (bField w) (aField w) = w := by
  have h' := congrArg BitVec.toNat h
  rw [rsvField_toNat, BitVec.toNat_ofNat] at h'
  apply BitVec.eq_of_toNat_eq
  rw [assemble_toNat, opField_toNat, fField_toNat, cField_toNat, bField_toNat, aField_toNat]
  omega

/-- The decoder's mask keeps the bits of `op` and `rsv` and nothing else (R54). -/
theorem and_decoder_mask_toNat (w : Word) :
    (w &&& 0xFE000000#32).toNat = w.toNat / 2 ^ 25 * 2 ^ 25 := by
  have hw := w.isLt
  have key : w &&& 0xFE000000#32 = (w >>> 25) <<< 25 := by
    apply BitVec.eq_of_getLsbD_eq
    intro i hi
    have h : (0xFE000000#32).getLsbD i = decide (25 ≤ i) := by
      revert i
      decide
    rw [BitVec.getLsbD_and, h, BitVec.getLsbD_shiftLeft, BitVec.getLsbD_ushiftRight]
    by_cases hlt : i < 25
    · simp [hlt]
    · simp [hlt, hi, show 25 ≤ i by omega, show 25 + (i - 25) = i by omega]
  rw [key]
  simp only [BitVec.toNat_shiftLeft, BitVec.toNat_ushiftRight, Nat.shiftRight_eq_div_pow, Nat.shiftLeft_eq]
  omega

/-- A word matches a row of the opcode table exactly when `rsv` = 0 and `op` is the row's (R54). -/
theorem matches_row_iff (w : Word) (op : BitVec 4) :
    w &&& 0xFE000000#32 = op ++ 0#28 ↔ rsvField w = 0#3 ∧ opField w = op := by
  have hw := w.isLt
  rw [← BitVec.toNat_inj, ← BitVec.toNat_inj, ← BitVec.toNat_inj, and_decoder_mask_toNat,
    toNat_append_add, rsvField_toNat, opField_toNat, BitVec.toNat_ofNat, BitVec.toNat_ofNat]
  omega

/-- A word that matches a row is read by that row's `op`. -/
theorem decode_of_matches_row {w : Word} {op : BitVec 4} (h : w &&& 0xFE000000#32 = op ++ 0#28) :
    decode w = decodeOp w ∧ opField w = op := by
  obtain ⟨hr, ho⟩ := (matches_row_iff w op).1 h
  exact ⟨by simp [decode, hr], ho⟩

end Sys2Proof
end

