-- ==== Sys2Proof/Laws/State.lean ====
section
/-! SUPPORT. One lemma per field of the state per update: no later proof unfolds a record update. -/

namespace Sys2Proof.Machine

open Sys2Proof

@[simp] theorem deliver_phase (v : Res) (s : State) : (deliver v s).phase = s.phase := rfl
@[simp] theorem deliver_led (v : Res) (s : State) : (deliver v s).led = s.led := rfl
@[simp] theorem deliver_cmds (v : Res) (s : State) : (deliver v s).cmds = s.cmds := rfl
@[simp] theorem deliver_out (v : Res) (s : State) :
    (deliver v s).out = some { res := v, ill := false } := rfl

@[simp] theorem refuseCommand_phase (s : State) : (refuseCommand s).phase = s.phase := rfl
@[simp] theorem refuseCommand_led (s : State) : (refuseCommand s).led = s.led := rfl
@[simp] theorem refuseCommand_cmds (s : State) : (refuseCommand s).cmds = s.cmds := rfl
@[simp] theorem refuseCommand_out (s : State) :
    (refuseCommand s).out = some { res := 0#24, ill := true } := rfl

@[simp] theorem idle_phase (s : State) : (idle s).phase = s.phase := rfl
@[simp] theorem idle_led (s : State) : (idle s).led = s.led := rfl
@[simp] theorem idle_cmds (s : State) : (idle s).cmds = s.cmds := rfl
@[simp] theorem idle_out (s : State) : (idle s).out = none := rfl

@[simp] theorem presentWord_phase (w : Word) (s : State) : (presentWord w s).phase = s.phase := rfl
@[simp] theorem presentWord_led (w : Word) (s : State) : (presentWord w s).led = s.led := rfl
@[simp] theorem presentWord_out (w : Word) (s : State) : (presentWord w s).out = s.out := rfl
@[simp] theorem presentWord_cmds (w : Word) (s : State) :
    (presentWord w s).cmds = w :: s.cmds := rfl

@[simp] theorem renderState_phase (cfg : Config) (t : Shown) (s : State) :
    (renderState cfg t s).phase = advancePhase s.phase := by
  simp only [renderState, deliver_phase]
@[simp] theorem renderState_led (cfg : Config) (t : Shown) (s : State) :
    (renderState cfg t s).led = renderFrame cfg (advancePhase s.phase) t s.led := by
  simp only [renderState, deliver_led]
@[simp] theorem renderState_cmds (cfg : Config) (t : Shown) (s : State) :
    (renderState cfg t s).cmds = s.cmds := by
  simp only [renderState, deliver_cmds]
@[simp] theorem renderState_out (cfg : Config) (t : Shown) (s : State) :
    (renderState cfg t s).out = some { res := 0#24, ill := false } := by
  simp only [renderState, deliver_out]

end Sys2Proof.Machine
end

