-- ==== Sys2Proof/Laws/Ops.lean ====
section
/-! SUPPORT. What each shared operation does, said once: the port, the outputs, the LED buffer, the
digits and the byte layouts in arithmetic. -/

namespace Sys2Proof.Machine

open Sys2Proof

/-- Nothing is taken from an empty port, and only then. -/
theorem takeCommand_eq_none_iff (s : State) : takeCommand s = none ↔ s.cmds = [] := by
  cases h : s.cmds <;> simp [takeCommand, h]

/-- Taking a command takes the first word and changes nothing else. -/
theorem takeCommand_cons {s : State} {w : Word} {rest : List Word} (h : s.cmds = w :: rest) :
    takeCommand s = some (w, { s with cmds := rest }) := by
  simp [takeCommand, h]

@[simp] theorem takeCommand_presentWord (w : Word) (s : State) :
    takeCommand (presentWord w s) = some (w, s) := by
  simp [takeCommand, presentWord]

/-- Reading an entry of the LED buffer after a write to it, and after a write elsewhere. -/
theorem ledWrite_getElem (led : Vector Color 128) (i : Nat) (v : Color) (j : Nat) (hj : j < 128) :
    (ledWrite led i v)[j] = if i = j then v else led[j] := by
  simp [ledWrite, Vector.getElem_setIfInBounds]

theorem advancePhase_toNat (p : Phase) : (advancePhase p).toNat = (p.toNat + 1) % 2 ^ 16 := by
  simp [advancePhase, BitVec.toNat_add]

theorem tensOf_lt (v : Byte) : tensOf v < 26 := by
  have := v.isLt
  simp only [tensOf]
  omega

theorem onesOf_lt (v : Byte) : onesOf v < 10 := Nat.mod_lt _ (by decide)

theorem onesField_eq (byte : Byte) : onesField byte = byte.toNat % 16 := by
  simp [onesField, BitVec.extractLsb'_toNat]

theorem tensField_eq (len : Nat) (byte : Byte) : tensField len byte = byte.toNat / 16 % 2 ^ len := by
  simp [tensField, BitVec.extractLsb'_toNat, Nat.shiftRight_eq_div_pow]

theorem zextByte_eq (v : Byte) : zextByte v = BitVec.ofNat 24 v.toNat := by
  simp [zextByte, BitVec.setWidth_eq_append]

theorem sixtyByte_toNat (flag : Bool) (tens ones : Nat) :
    (sixtyByte flag tens ones).toNat = flag.toNat * 128 + tens % 8 * 16 + ones % 16 := by
  simp only [sixtyByte, toNat_append_add, BitVec.toNat_ofBool, BitVec.toNat_ofNat]
  omega

theorem twelveHourByte_toNat (merid : Bool) (tens ones : Nat) :
    (twelveHourByte merid tens ones).toNat = 64 + merid.toNat * 32 + tens % 2 * 16 + ones % 16 := by
  simp only [twelveHourByte, toNat_append_add, BitVec.toNat_ofBool, BitVec.toNat_ofNat]
  omega

theorem twentyFourHourByte_toNat (tens ones : Nat) :
    (twentyFourHourByte tens ones).toNat = tens % 4 * 16 + ones % 16 := by
  simp only [twentyFourHourByte, toNat_append_add, BitVec.toNat_ofNat]
  omega

theorem packedTwelve_toNat (merid : Bool) (value : Nat) :
    (packedTwelve merid value).toNat = 32 + merid.toNat * 16 + value % 16 := by
  simp only [packedTwelve, toNat_append_add, BitVec.toNat_ofBool, BitVec.toNat_ofNat]
  omega

/-- The mask of SETBIT selects the addressed bit and no other (R83). -/
theorem bitMask_getLsbD (index : Byte) (i : Nat) (hi : i < 8) :
    (bitMask index).getLsbD i = decide (i = index.toNat) := by
  rw [bitMask, BitVec.getLsbD_ofNat, Nat.testBit_two_pow]
  simp [hi, eq_comm]

end Sys2Proof.Machine
end

