-- ==== Sys2Proof/Laws/Render.lean ====
section
/-! SUPPORT. The laws of the zones, of the colour mapper and of the frame's writes. -/

namespace Sys2Proof

/-- R112: an LED index lies at one place of one zone only. -/
theorem Config.zone_place_unique (cfg : Config) {z z' : Zone} {k k' : Nat} (hk : k < z.len)
    (hk' : k' < z'.len) (h : cfg.zoneBase z + k = cfg.zoneBase z' + k') : z = z' ∧ k = k' := by
  by_cases hz : z = z'
  · subst hz
    exact ⟨rfl, by omega⟩
  · have := cfg.zone_disjoint z z' hz
    omega

/-- R112: every index of a zone is an index of the buffer. -/
theorem Config.zone_index_lt (cfg : Config) {z : Zone} {k : Nat} (hk : k < z.len) :
    cfg.zoneBase z + k < 128 := by
  have := cfg.zone_inside z
  omega

/-- R112: every index of the buffer is an index of some zone. -/
theorem Config.exists_zone_place (cfg : Config) {i : Nat} (hi : i < 128) :
    ∃ z k, k < z.len ∧ cfg.zoneBase z + k = i := by
  obtain ⟨z, h1, h2⟩ := cfg.zone_cover i hi
  exact ⟨z, i - cfg.zoneBase z, by omega, by omega⟩

end Sys2Proof

namespace Sys2Proof.Machine

open Sys2Proof

theorem mem_zoneOrder (z : Zone) : z ∈ zoneOrder := by cases z <;> decide

@[simp] theorem ledColor_unlit (cfg : Config) (p : Phase) (i : Nat) : ledColor cfg p i false = 0#24 := rfl

/-- R117 in arithmetic: the sum is taken modulo `2^16`. -/
theorem ledColor_lit (cfg : Config) (p : Phase) (i : Nat) :
    ledColor cfg p i true = cfg.color (BitVec.ofNat 16 (p.toNat + 3 * i)) := by
  simp [ledColor, BitVec.ofNat_add]

/-- R117: an entry is black exactly when it is unlit. -/
theorem ledColor_eq_black_iff (cfg : Config) (p : Phase) (i : Nat) (lit : Bool) :
    ledColor cfg p i lit = 0#24 ↔ lit = false := by
  cases lit
  · simp
  · simp [ledColor, cfg.color_ne_black]

/-- The writes of a frame are exactly the places of the zones with their colours (R116). -/
theorem mem_frameWrites (cfg : Config) (p : Phase) (t : Shown) (w : Nat × Color) :
    w ∈ frameWrites cfg p t ↔ ∃ z k, k < z.len ∧ w = (cfg.zoneBase z + k,
      ledColor cfg p (cfg.zoneBase z + k) (zoneLit cfg t z k)) := by
  simp only [frameWrites, List.mem_flatMap, zoneWrites, List.mem_map, List.mem_range]
  constructor
  · rintro ⟨z, -, k, hk, rfl⟩
    exact ⟨z, k, hk, rfl⟩
  · rintro ⟨z, k, hk, rfl⟩
    exact ⟨z, mem_zoneOrder z, k, hk, rfl⟩

/-- If every write to an entry writes one value and there is one (or the entry has the value already),
the entry has that value after the writes. -/
theorem applyWrites_getElem (ws : List (Nat × Color)) (led : Vector Color 128) (j : Nat) (hj : j < 128)
    (v : Color) (hv : ∀ w ∈ ws, w.1 = j → w.2 = v) (h : (∃ w ∈ ws, w.1 = j) ∨ led[j] = v) :
    (applyWrites led ws)[j] = v := by
  induction ws generalizing led with
  | nil => simpa [applyWrites] using h
  | cons w ws ih =>
    refine ih (ledWrite led w.1 w.2) (fun u hu => hv u (List.mem_cons_of_mem _ hu)) ?_
    by_cases hw : w.1 = j
    · exact Or.inr (by rw [ledWrite_getElem, if_pos hw]; exact hv w (List.mem_cons_self ..) hw)
    · rcases h with ⟨u, hu, huj⟩ | h
      · rcases List.mem_cons.1 hu with rfl | hu
        · exact absurd huj hw
        · exact Or.inl ⟨u, hu, huj⟩
      · exact Or.inr (by rw [ledWrite_getElem, if_neg hw]; exact h)

/-- The buffer after a frame, entry by entry: nothing of the old buffer is left (R116). -/
theorem renderFrame_getElem (cfg : Config) (p : Phase) (t : Shown) (led : Vector Color 128) {z : Zone}
    {k : Nat} (hk : k < z.len) :
    (renderFrame cfg p t led)[cfg.zoneBase z + k]'(cfg.zone_index_lt hk) =
      ledColor cfg p (cfg.zoneBase z + k) (zoneLit cfg t z k) := by
  apply applyWrites_getElem
  · intro w hw h
    obtain ⟨z', k', hk', rfl⟩ := (mem_frameWrites ..).1 hw
    obtain ⟨rfl, rfl⟩ := cfg.zone_place_unique hk' hk h
    rfl
  · exact Or.inl ⟨_, (mem_frameWrites ..).2 ⟨z, k, hk, rfl⟩, rfl⟩

end Sys2Proof.Machine
end

