-- ==== Sys2Proof/Laws/Exec.lean ====
section
/-! SUPPORT. Each command's meaning as one equation, so that no proof unfolds `exec`. -/

namespace Sys2Proof.Machine

open Sys2Proof

theorem exec_decbcd (byte mask shift : Byte) (s : State) :
    exec (.decbcd byte mask shift) s = .next (deliver (zextNat (decBcd byte mask shift)) s) := rfl

theorem exec_decsec (byte : Byte) (s : State) :
    exec (.decsec byte) s = .next (deliver (zextNat (decSixty byte)) s) := rfl

theorem exec_decmin (byte : Byte) (s : State) :
    exec (.decmin byte) s = .next (deliver (zextNat (decSixty byte)) s) := rfl

theorem exec_dechrs (byte : Byte) (s : State) :
    exec (.dechrs byte) s = .next (deliver (decHours byte) s) := rfl

theorem exec_encsec (value : Byte) (osc : Bool) (s : State) :
    exec (.encsec value osc) s = .next (deliver (zextByte (encSixty osc value)) s) := rfl

theorem exec_encmin (value : Byte) (s : State) :
    exec (.encmin value) s = .next (deliver (zextByte (encSixty false value)) s) := rfl

theorem exec_enchrs (value : Byte) (use12Hour : Bool) (s : State) :
    exec (.enchrs value use12Hour) s = .next (deliver (zextByte (encHours value use12Hour)) s) := rfl

theorem exec_setbit (byte index : Byte) (enabled : Bool) (s : State) :
    exec (.setbit byte index enabled) s = .next (deliver (zextByte (setBit byte index enabled)) s) := rfl

theorem exec_split (value : Byte) (s : State) :
    exec (.split value) s = .next (deliver (splitValue value) s) := rfl

theorem exec_glyph {digit index : Byte} (h : GlyphInTable digit index) (s : State) :
    exec (.glyph digit index) s =
      .next (deliver ((BitVec.ofBool
        (glyphBit Config.machine ⟨digit.toNat, h.1⟩ index.toNat)).setWidth 24) s) := dif_pos h

theorem exec_glyph_refused {digit index : Byte} (h : ¬ GlyphInTable digit index) (s : State) :
    exec (.glyph digit index) s = .next (refuseCommand s) := dif_neg h

theorem exec_render {hours minutes seconds : Byte} (colon : Bool)
    (h : TimeInTable hours minutes seconds) (s : State) :
    exec (.render hours minutes seconds colon) s =
      .next (renderState Config.machine (shownOf hours minutes seconds colon h) s) := dif_pos h

theorem exec_render_refused {hours minutes seconds : Byte} (colon : Bool)
    (h : ¬ TimeInTable hours minutes seconds) (s : State) :
    exec (.render hours minutes seconds colon) s = .next (refuseCommand s) := dif_neg h

theorem exec_ledrd {index : Byte} (h : LedInBuffer index) (s : State) :
    exec (.ledrd index) s = .next (deliver (ledRead s ⟨index.toNat, h⟩) s) := dif_pos h

theorem exec_ledrd_refused {index : Byte} (h : ¬ LedInBuffer index) (s : State) :
    exec (.ledrd index) s = .next (refuseCommand s) := dif_neg h

/-- Everything a command can do: drive a result, be refused, or render a frame. -/
theorem exec_cases (i : Instr) (s : State) :
    (∃ v, exec i s = .next (deliver v s))
    ∨ exec i s = .next (refuseCommand s)
    ∨ ∃ h m x f, ∃ ok : TimeInTable h m x, i = .render h m x f
        ∧ exec i s = .next (renderState Config.machine (shownOf h m x f ok) s) := by
  cases i with
  | glyph digit index =>
    by_cases h : GlyphInTable digit index
    · exact .inl ⟨_, exec_glyph h s⟩
    · exact .inr (.inl (exec_glyph_refused h s))
  | render hours minutes seconds colon =>
    by_cases h : TimeInTable hours minutes seconds
    · exact .inr (.inr ⟨_, _, _, _, h, rfl, exec_render colon h s⟩)
    · exact .inr (.inl (exec_render_refused colon h s))
  | ledrd index =>
    by_cases h : LedInBuffer index
    · exact .inl ⟨_, exec_ledrd h s⟩
    · exact .inr (.inl (exec_ledrd_refused h s))
  | decbcd | decsec | decmin | dechrs | encsec | encmin | enchrs | setbit | split =>
    exact .inl ⟨_, rfl⟩

end Sys2Proof.Machine
end

