-- ==== Sys2Proof/Laws/Step.lean ====
section
/-! SUPPORT. What accepting a word and one step can do. -/

namespace Sys2Proof.Machine

open Sys2Proof

theorem accept_of_decode {w : Word} {i : Instr} (h : decode w = .ok i) (s : State) :
    accept w s = exec i s := by
  simp [accept, h]

theorem accept_of_error {w : Word} {why : DecodeError} (h : decode w = .error why) (s : State) :
    accept w s = .next (refuseCommand s) := by
  simp [accept, h, rejectWord]

theorem step_of_nil {s : State} (h : s.cmds = []) : step s = .next (idle s) := by
  simp [step, (takeCommand_eq_none_iff s).2 h]

theorem step_of_cons {s : State} {w : Word} {rest : List Word} (h : s.cmds = w :: rest) :
    step s = accept w { s with cmds := rest } := by
  simp [step, takeCommand_cons h]

/-- A 32-bit word is read from its number. -/
theorem tableWord_toNat (w : Word) : tableWord 32 w.toNat = some w := by
  have h := w.isLt
  simp [tableWord, Nat.mod_eq_of_lt h, h]

theorem step_withFetchWord (s : State) (w : Word) : step (s.withFetchWord 32 w.toNat) = accept w s := by
  simp [State.withFetchWord, placeTableWord, tableWord_toNat, step]

/-- Everything a step can do: nothing while no command is presented; else drive a result, refuse, or
render a frame, in the state whose port has lost the word that was taken. -/
theorem step_cases (s : State) :
    (s.cmds = [] ∧ step s = .next (idle s))
    ∨ ∃ w rest, s.cmds = w :: rest ∧
      ((∃ v, step s = .next (deliver v { s with cmds := rest }))
      ∨ step s = .next (refuseCommand { s with cmds := rest })
      ∨ ∃ h m x f, ∃ ok : TimeInTable h m x, decode w = .ok (.render h m x f)
          ∧ step s = .next (renderState Config.machine (shownOf h m x f ok) { s with cmds := rest })) := by
  cases hc : s.cmds with
  | nil => exact .inl ⟨rfl, step_of_nil hc⟩
  | cons w rest =>
    refine .inr ⟨w, rest, rfl, ?_⟩
    rw [step_of_cons hc]
    cases hd : decode w with
    | error why => exact .inr (.inl (accept_of_error hd _))
    | ok i =>
      rw [accept_of_decode hd]
      rcases exec_cases i { s with cmds := rest } with h | h | ⟨h, m, x, f, ok, rfl, he⟩
      · exact .inl h
      · exact .inr (.inl h)
      · exact .inr (.inr ⟨h, m, x, f, ok, rfl, he⟩)

end Sys2Proof.Machine
end

