-- ==== Sys2Proof/Laws/Driver.lean ====
section
/-! SUPPORT. What each primitive of the driver layer does to a record. -/

namespace Sys2Proof.Machine.Driver

open Sys2Proof Sys2Proof.Machine

/-- Running one sequence after another: an answer of the first is handed to the second. -/
theorem run_bind_ok {α β : Type} {x : Run α} {f : α → Run β} {sys sys' : System} {a : α}
    (h : x.run sys = .ok (a, sys')) : (x >>= f).run sys = (f a).run sys' := by
  rw [StateT.run_bind, h]
  rfl

/-- A sequence stops when its first part stops. -/
theorem run_bind_error {α β : Type} {x : Run α} {f : α → Run β} {sys : System} {why : Stop}
    (h : x.run sys = .error why) : (x >>= f).run sys = .error why := by
  rw [StateT.run_bind, h]
  rfl

/-- What a completed sequence of two parts did: each part completed. -/
theorem run_bind_ok_inv {α β : Type} {x : Run α} {f : α → Run β} {sys sys'' : System} {b : β}
    (h : (x >>= f).run sys = .ok (b, sys'')) :
    ∃ a sys', x.run sys = .ok (a, sys') ∧ (f a).run sys' = .ok (b, sys'') := by
  rw [StateT.run_bind] at h
  cases hx : x.run sys with
  | error why => rw [hx] at h; cases h
  | ok p => rw [hx] at h; exact ⟨p.1, p.2, rfl, h⟩

theorem pure_run {α : Type} (a : α) (sys : System) :
    (pure a : Run α).run sys = .ok (a, sys) := rfl

theorem emit_run (e : Event) (sys : System) :
    (emit e).run sys = .ok ((), { sys with trace := sys.trace ++ [e] }) := rfl

theorem writeByte_run (b : Byte) (sys : System) :
    (writeByte b).run sys = .ok ((), { sys with trace := sys.trace ++ [.writeByte b] }) := rfl

theorem busClose_run (sys : System) :
    busClose.run sys = .ok ((), { sys with trace := sys.trace ++ [.busClose] }) := rfl

theorem noteProbe_run (ok : Bool) (sys : System) :
    (noteProbe ok).run sys = .ok ((), { sys with probed := ok }) := rfl

theorem suspendEvents_run (suspend : Bool) (sys : System) :
    (suspendEvents suspend).run sys = .ok ((), { sys with
      trace := sys.trace ++ [if suspend then .suspendEvents else .resumeEvents]
      eventsSuspended := suspend }) := rfl

theorem nextAnswer_run {sys : System} {answer : Answer} {rest : List Answer}
    (h : sys.answers = answer :: rest) :
    nextAnswer.run sys = .ok (answer, { sys with answers := rest }) := by
  obtain ⟨block, answers, trace, probed, suspended⟩ := sys
  cases h
  rfl

theorem busOpen_run_opened {sys : System} {rest : List Answer} (mode : Nat)
    (h : sys.answers = .opened :: rest) :
    (busOpen mode).run sys = .ok (.ok, { sys with
      answers := rest
      trace := sys.trace ++ [.busOpen Config.machine.rtcDevAddr mode .ok] }) := by
  obtain ⟨block, answers, trace, probed, suspended⟩ := sys
  cases h
  rfl

theorem busOpen_run_failed {sys : System} {code : Nat} {rest : List Answer} (mode : Nat)
    (h : sys.answers = .openFailed code :: rest) :
    (busOpen mode).run sys = .ok (.err code, { sys with
      answers := rest
      trace := sys.trace ++ [.busOpen Config.machine.rtcDevAddr mode (.err code)] }) := by
  obtain ⟨block, answers, trace, probed, suspended⟩ := sys
  cases h
  rfl

theorem busOpenPresent_run_opened {sys : System} {rest : List Answer} (mode : Nat)
    (h : sys.answers = .opened :: rest) :
    (busOpenPresent mode).run sys = .ok ((), { sys with
      answers := rest
      trace := sys.trace ++ [.busOpen Config.machine.rtcDevAddr mode .ok] }) := by
  rw [busOpenPresent, run_bind_ok (busOpen_run_opened mode h)]
  rfl

theorem busOpenPresent_run_failed {sys : System} {code : Nat} {rest : List Answer} (mode : Nat)
    (h : sys.answers = .openFailed code :: rest) :
    (busOpenPresent mode).run sys = .error (.deviceLost code) := by
  rw [busOpenPresent, run_bind_ok (busOpen_run_failed mode h)]
  rfl

theorem readByteNoAck_run {sys : System} {b : Byte} {rest : List Answer}
    (h : sys.answers = .byte b :: rest) :
    readByteNoAck.run sys = .ok (b, { sys with
      answers := rest
      trace := sys.trace ++ [.readByteNoAck b] }) := by
  obtain ⟨block, answers, trace, probed, suspended⟩ := sys
  cases h
  rfl

theorem readByteWithAck_run {sys : System} {b : Byte} {rest : List Answer}
    (h : sys.answers = .byte b :: rest) :
    readByteWithAck.run sys = .ok (b, { sys with
      answers := rest
      trace := sys.trace ++ [.readByteWithAck b] }) := by
  obtain ⟨block, answers, trace, probed, suspended⟩ := sys
  cases h
  rfl

theorem afterProbe_run_probed {sys : System} (h : sys.probed = true) :
    afterProbe.run sys = .ok ((), sys) := by
  obtain ⟨block, answers, trace, probed, suspended⟩ := sys
  cases h
  rfl

theorem afterProbe_run_unprobed {sys : System} (h : sys.probed = false) :
    afterProbe.run sys = .error .beforeProbe := by
  obtain ⟨block, answers, trace, probed, suspended⟩ := sys
  cases h
  rfl

/-- A presented word that gives a result: the block's outputs are recorded with it. -/
theorem issueWord_run {sys : System} {w : Word} {block : State} {driven : Output}
    (h : accept w sys.block = .next block) (ho : block.out = some driven) :
    (issueWord w).run sys = .ok (driven, { sys with
      block := block
      trace := sys.trace ++ [.command w driven] }) := by
  simp only [issueWord, StateT.run, h, ho]

end Sys2Proof.Machine.Driver
end

