-- ==== Sys2Proof/Laws/PerInstr.lean ====
section
/-! SUPPORT. The family Encoding: the word of a command has zero reserved bits and an `op` of the map. -/

namespace Sys2Proof.Laws.Encoding

open Sys2Proof

/-- The word of the command has `rsv` = 0 and `op` of 0x0 to 0xB (R54, R55). -/
def Statement (i : Instr) : Prop := rsvField (encode i) = 0#3 ∧ (opField (encode i)).toNat < 12

theorem decbcd (byte mask shift : Byte) : Statement (.decbcd byte mask shift) := by
  simp [Statement, encode]

theorem decsec (byte : Byte) : Statement (.decsec byte) := by simp [Statement, encode]

theorem decmin (byte : Byte) : Statement (.decmin byte) := by simp [Statement, encode]

theorem dechrs (byte : Byte) : Statement (.dechrs byte) := by simp [Statement, encode]

theorem encsec (value : Byte) (osc : Bool) : Statement (.encsec value osc) := by
  simp [Statement, encode]

theorem encmin (value : Byte) : Statement (.encmin value) := by simp [Statement, encode]

theorem enchrs (value : Byte) (h12 : Bool) : Statement (.enchrs value h12) := by
  simp [Statement, encode]

theorem setbit (byte index : Byte) (enabled : Bool) : Statement (.setbit byte index enabled) := by
  simp [Statement, encode]

theorem split (value : Byte) : Statement (.split value) := by simp [Statement, encode]

theorem glyph (digit index : Byte) : Statement (.glyph digit index) := by simp [Statement, encode]

theorem render (hours minutes seconds : Byte) (colon : Bool) :
    Statement (.render hours minutes seconds colon) := by
  simp [Statement, encode]

theorem ledrd (index : Byte) : Statement (.ledrd index) := by simp [Statement, encode]

end Sys2Proof.Laws.Encoding
end

