-- ==== Sys2Proof/Tests/Slice0.lean ====
section
/-! SUPPORT. Tests. Expected results come from the spec: words written out bit by bit from R51 and R54
(grouped op, rsv, f, c, b, a), the vectors of spec/95_test_vectors.md with its test-only instances of the
ROM and the oracle, and witnesses that the hypotheses of the statements can be met. -/

namespace Sys2Proof.Tests

open Sys2Proof Sys2Proof.Machine Sys2Proof.Machine.Driver

/-- A small state: some phase, a buffer of one colour, nothing driven, the given commands to come. -/
def st (cmds : List Word) : State :=
  { phase := 0x1234#16, led := Vector.replicate 128 0x010203#24, out := none, cmds := cmds }

/-- What a command drives in the small state: `ill` and `res`. -/
def drives (i : Instr) : Option (Bool × Res) :=
  match exec i (st []) with
  | .next t => t.out.map fun o => (o.ill, o.res)
  | .fault _ => none
  | .refused _ => none

/-! ### Decoding (R51, R54) -/

theorem test_decode_decbcd : (decode 0b0000_000_0_00000100_01110000_01011001#32).toOption
    = some (.decbcd 0x59#8 0x70#8 4#8) := by decide
theorem test_decode_decsec : (decode 0b0001_000_0_00000000_00000000_11011001#32).toOption
    = some (.decsec 0xD9#8) := by decide
theorem test_decode_decmin : (decode 0b0010_000_0_00000000_00000000_00110100#32).toOption
    = some (.decmin 0x34#8) := by decide
theorem test_decode_dechrs : (decode 0b0011_000_0_00000000_00000000_01110010#32).toOption
    = some (.dechrs 0x72#8) := by decide
theorem test_decode_encsec : (decode 0b0100_000_1_00000000_00000000_00111011#32).toOption
    = some (.encsec 59#8 true) := by decide
theorem test_decode_encmin : (decode 0b0101_000_0_00000000_00000000_00100010#32).toOption
    = some (.encmin 34#8) := by decide
theorem test_decode_enchrs : (decode 0b0110_000_1_00000000_00000000_00001100#32).toOption
    = some (.enchrs 12#8 true) := by decide
theorem test_decode_setbit : (decode 0b0111_000_1_00000011_00000000_00110001#32).toOption
    = some (.setbit 0x31#8 3#8 true) := by decide
theorem test_decode_split : (decode 0b1000_000_0_00000000_00000000_00111011#32).toOption
    = some (.split 59#8) := by decide
theorem test_decode_glyph : (decode 0b1001_000_0_00010011_00000000_00001000#32).toOption
    = some (.glyph 8#8 19#8) := by decide
theorem test_decode_render : (decode 0b1010_000_1_00111000_00100010_00001100#32).toOption
    = some (.render 12#8 34#8 56#8 true) := by decide
theorem test_decode_ledrd : (decode 0b1011_000_0_01111111_00000000_00000000#32).toOption
    = some (.ledrd 127#8) := by decide

/-- 3.10: unused fields of ones are ignored. -/
theorem test_decode_unused_ones : (decode 0x11FFFFD9#32).toOption = some (.decsec 0xD9#8) := by decide
/-- 3.10: the reserved words, rejected by name. -/
theorem test_decode_reserved :
    (match decode 0xC0000000#32 with | .error e => some e | .ok _ => none) = some (.reservedOp 0xC#4)
    ∧ (match decode 0xF1FFFFFF#32 with | .error e => some e | .ok _ => none) = some (.reservedOp 0xF#4)
    ∧ (match decode 0x120000D9#32 with | .error e => some e | .ok _ => none) = some (.reservedBits 1#3)
    ∧ (match decode 0xAE585858#32 with | .error e => some e | .ok _ => none) = some (.reservedBits 7#3) := by
  decide
theorem test_decodeTableWord : decodeTableWord 32 0xB07F0000 = some (.ledrd 127#8)
    ∧ decodeTableWord 32 0xC0000000 = none := by decide

/-! ### Well-formedness: one ill-formed command for each check -/

theorem test_wf_glyphDigit : (Instr.glyph 10#8 19#8).problems = [.glyphDigit] := by decide
theorem test_wf_glyphIndex : (Instr.glyph 9#8 20#8).problems = [.glyphIndex] := by decide
theorem test_wf_renderHours : (Instr.render 100#8 99#8 99#8 true).problems = [.renderHours] := by decide
theorem test_wf_renderMinutes : (Instr.render 99#8 100#8 99#8 true).problems = [.renderMinutes] := by decide
theorem test_wf_renderSeconds : (Instr.render 99#8 99#8 100#8 true).problems = [.renderSeconds] := by decide
theorem test_wf_ledrdIndex : (Instr.ledrd 128#8).problems = [.ledrdIndex] := by decide
theorem test_wf_accepts : (Instr.glyph 9#8 19#8).wellFormed = true
    ∧ (Instr.render 99#8 99#8 99#8 false).wellFormed = true ∧ (Instr.ledrd 127#8).wellFormed = true
    ∧ (Instr.encsec 255#8 true).wellFormed = true := by decide

/-! ### Vectors of 95_test_vectors.md -/

/-- 3.1: the largest result; a shift of 8. -/
theorem test_decbcd : drives (.decbcd 0xFF#8 0xFF#8 0#8) = some (false, 2565#24)
    ∧ drives (.decbcd 0x59#8 0x70#8 8#8) = some (false, 9#24)
    ∧ drives (.decbcd 0xFF#8 0x80#8 7#8) = some (false, 25#24) := by decide
/-- 3.2. -/
theorem test_decsec : drives (.decsec 0xD9#8) = some (false, 59#24)
    ∧ drives (.decsec 0x7F#8) = some (false, 85#24) := by decide
theorem test_decmin : drives (.decmin 0x6F#8) = some (false, 75#24) := by decide
/-- 3.3: twenty-four-hour, PM, and the two layouts' odd corners. -/
theorem test_dechrs : drives (.dechrs 0xA3#8) = some (false, 0x17#24)
    ∧ drives (.dechrs 0x72#8) = some (false, 0x3C#24) ∧ drives (.dechrs 0x32#8) = some (false, 0x20#24)
    ∧ drives (.dechrs 0x7F#8) = some (false, 0x39#24) := by decide
/-- 3.4. -/
theorem test_encsec : drives (.encsec 59#8 true) = some (false, 0xD9#24)
    ∧ drives (.encsec 99#8 true) = some (false, 0x99#24)
    ∧ drives (.encsec 255#8 false) = some (false, 0x15#24) := by decide
theorem test_encmin : drives (.encmin 34#8) = some (false, 0x34#24)
    ∧ drives (.encmin 80#8) = some (false, 0x00#24) := by decide
/-- 3.5. -/
theorem test_enchrs : drives (.enchrs 13#8 true) = some (false, 0x73#24)
    ∧ drives (.enchrs 20#8 true) = some (false, 0x60#24) ∧ drives (.enchrs 12#8 true) = some (false, 0x52#24)
    ∧ drives (.enchrs 39#8 false) = some (false, 0x39#24)
    ∧ drives (.enchrs 255#8 false) = some (false, 0x15#24) := by decide
/-- 3.6. -/
theorem test_setbit : drives (.setbit 0x31#8 3#8 true) = some (false, 0x39#24)
    ∧ drives (.setbit 0xA5#8 5#8 false) = some (false, 0x85#24)
    ∧ drives (.setbit 0xFF#8 200#8 false) = some (false, 0xFF#24) := by decide
/-- 3.7. -/
theorem test_split : drives (.split 59#8) = some (false, 0x000509#24)
    ∧ drives (.split 255#8) = some (false, 0x001905#24) := by decide
/-- 3.8: refused for every ROM. -/
theorem test_glyph_refused : drives (.glyph 10#8 0#8) = some (true, 0#24)
    ∧ drives (.glyph 8#8 20#8) = some (true, 0#24) := by decide
theorem test_ledrd : drives (.ledrd 127#8) = some (false, 0x010203#24)
    ∧ drives (.ledrd 128#8) = some (true, 0#24) := by decide
/-- P4 step 1: a refused RENDER leaves PHASE and LED alone, and the next command executes. -/
theorem test_render_refused :
    (match Host.Core.run core 2 (st [0xA1382264#32, 0xB07F0000#32]) with
      | .next t => some (t.phase, t.led[0], t.out.map Output.res, t.cmds)
      | .fault _ => none
      | .refused _ => none) = some (0x1234#16, 0x010203#24, some 0x010203#24, []) := by decide
/-- R116: RENDER advances PHASE, also past 65535. -/
theorem test_render_phase :
    (match exec (.render 99#8 0#8 59#8 false) (st []) with
      | .next t => some t.phase
      | .fault _ => none
      | .refused _ => none) = some 0x1235#16 ∧ advancePhase 0xFFFF#16 = 0#16 := by decide

/-- Section 2: the test-only ROM `GLYPH_TEST` and oracle `COLOR_TEST`, the default zone layout. -/
def testConfig : Config where
  glyphRom := fun d => [0xAAAAA#20, 0x0000F#20, 0x33333#20, 0x0F0F0#20, 0x00FF0#20, 0x55555#20,
    0xF000F#20, 0x000FF#20, 0xFFFFF#20, 0xCCCCC#20].getD d.val 0#20
  color := fun x => 0x010000#24 + x.setWidth 24
  color_ne_black := by
    intro x h
    have := congrArg BitVec.toNat h
    simp only [BitVec.toNat_add, BitVec.toNat_setWidth, BitVec.toNat_ofNat] at this
    omega

/-- P3: the frame of 12:34:56 with the colon lit at PHASE 0, over a buffer of another colour. -/
def testFrame : Vector Color 128 :=
  renderFrame testConfig 0#16 (shownOf 12#8 34#8 56#8 true (by decide)) (st []).led

theorem test_frame_entries : [testFrame[0], testFrame[4], testFrame[20], testFrame[22], testFrame[44],
    testFrame[71], testFrame[80], testFrame[81], testFrame[119], testFrame[127]] =
    [0x010000#24, 0#24, 0x01003C#24, 0#24, 0x010084#24, 0x0100D5#24, 0x0100F0#24, 0#24, 0x010165#24,
      0x01017D#24] := by decide +kernel
theorem test_frame_count : testFrame.toList.countP (fun v => v ≠ 0#24) = 56 := by decide +kernel
/-- 3.8 with `GLYPH_TEST`. -/
theorem test_glyph : glyphBit testConfig 1 0 = true ∧ glyphBit testConfig 1 4 = false
    ∧ glyphBit testConfig 5 1 = false ∧ glyphBit testConfig 9 19 = true := by decide
/-- 3.9: the sum in the oracle's argument wraps. -/
theorem test_ledColor_wraps : ledColor testConfig 0xFFFF#16 1 true = 0x010002#24
    ∧ ledColor testConfig 0x1235#16 19 true = 0x01126E#24 := by decide

/-! ### Driver sequences: program P2 -/

/-- A record with the small block, nothing done yet, and the given answers to come. -/
def sys (probed : Bool) (answers : List Answer) : System :=
  { block := st [], answers := answers, trace := [], probed := probed, eventsSuspended := false }

/-- The bytes written on the bus, in order. -/
def written (trace : List Event) : List Byte :=
  trace.filterMap fun e => match e with | .writeByte b => some b | _ => none

/-- P2: results and bus bytes (each register address, then the data byte of a write). -/
theorem test_program_P2 :
    ((runOps [.probe, .setvbat true, .getsec, .getmin, .gethrs]).run (sys false
      [.opened, .opened, .opened, .byte 0x59#8, .opened, .opened, .opened, .byte 0x31#8, .opened,
       .opened, .opened, .byte 0xDA#8, .opened, .opened, .byte 0x34#8,
       .opened, .opened, .byte 0x23#8])).toOption.map (fun p => (p.1, written p.2.trace)) =
    some ([.done, .done, .value 60#24, .value 34#24, .value 0x17#24],
      [0x00#8, 0x00#8, 0xD9#8, 0x03#8, 0x03#8, 0x39#8, 0x00#8, 0x01#8, 0x02#8]) := by decide +kernel
/-- P2, last sentence: the failed probe. -/
theorem test_probe_fails :
    (probe.run (sys false [.openFailed 7])).toOption.map (fun p => (p.1, written p.2.trace)) =
    some (.probeFailed 7, []) := by decide
/-- 3.11: the SET sequences and the passthroughs. -/
theorem test_set_sequences :
    ((runOps [.setsec 0#8 true, .setmin 35#8, .sethrs 23#8 false, .sethrs 12#8 true, .setctl 0x40#8,
      .settrim (trimByte true 5#7)]).run (sys true (List.replicate 6 .opened))).toOption.map
        (fun p => written p.2.trace) =
    some [0x00#8, 0x80#8, 0x01#8, 0x35#8, 0x02#8, 0x23#8, 0x02#8, 0x52#8, 0x07#8, 0x40#8, 0x08#8, 0x85#8] := by
  decide +kernel
theorem test_control_fields : sqwen 0x43#8 = true ∧ sqwfs 0x43#8 = 3#2 ∧ mfpOut 0x43#8 = false := by decide
theorem test_hour_view : hourView 0x3C#8 = .twelve true 12#4 ∧ hourView 0x17#8 = .twentyFour 23#8 := by
  decide

/-! ### Witnesses: the hypotheses of the statements can be met -/

/-- The words that match the rows of the opcode table (one per row), for the decoding clauses. -/
theorem witness_row_words :
    0x00047059#32 &&& 0xFE000000#32 = 0x00000000#32 ∧ 0x11FFFFD9#32 &&& 0xFE000000#32 = 0x10000000#32
    ∧ 0x20000034#32 &&& 0xFE000000#32 = 0x20000000#32 ∧ 0x30000072#32 &&& 0xFE000000#32 = 0x30000000#32
    ∧ 0x4100003B#32 &&& 0xFE000000#32 = 0x40000000#32 ∧ 0x5100003B#32 &&& 0xFE000000#32 = 0x50000000#32
    ∧ 0x610000FF#32 &&& 0xFE000000#32 = 0x60000000#32 ∧ 0x71070059#32 &&& 0xFE000000#32 = 0x70000000#32
    ∧ 0x800000FF#32 &&& 0xFE000000#32 = 0x80000000#32 ∧ 0x90130008#32 &&& 0xFE000000#32 = 0x90000000#32
    ∧ 0xA1585858#32 &&& 0xFE000000#32 = 0xA0000000#32 ∧ 0xB07F0000#32 &&& 0xFE000000#32 = 0xB0000000#32 := by
  decide

/-- DechrsGivesPackedHourForm, DecodeFamilyProperties: both layouts. -/
theorem witness_hour_layouts : (0x7F#8).toNat / 64 % 2 = 1 ∧ (0x40#8).getLsbD 6 = true
    ∧ (0x3F#8).toNat / 64 % 2 = 0 ∧ (0x80#8).getLsbD 6 = false := by decide

/-- HourViewReadsBackValidHours: the ends of both ranges. -/
theorem witness_valid_hours :
    (h12 0x41#8 = true ∧ (hrten 0x41#8).toNat * 10 + (hrone 0x41#8).toNat = 1)
    ∧ (h12 0x72#8 = true ∧ (hrten 0x72#8).toNat * 10 + (hrone 0x72#8).toNat = 12)
    ∧ (h12 0x00#8 = false ∧ (hrten 0x00#8).toNat * 10 + (hrone 0x00#8).toNat = 0)
    ∧ (h12 0x23#8 = false ∧ (hrten 0x23#8).toNat * 10 + (hrone 0x23#8).toNat = 23) := by decide

/-- SetbitForcesOneBit, SetbitIsIdempotent: the last index of a byte, at a clear bit. -/
theorem witness_setbit_index : 7 < 8 ∧ (7#8).toNat < 8 ∧ (0x59#8).getLsbD (7#8).toNat = false := by decide

/-- CodecRoundTrips, TwelveHourBytesReadBack: the last values of the ranges. -/
theorem witness_round_trip_ranges : (79#8).toNat < 80 ∧ (39#8).toNat < 40
    ∧ (1 ≤ (1#8).toNat ∧ (1#8).toNat ≤ 12) ∧ (1 ≤ (12#8).toNat ∧ (12#8).toNat ≤ 12)
    ∧ (0x79#8).toNat % 16 ≤ 9 := by decide

/-- CodecAndSplitDependOnNoState. -/
theorem witness_codec_command : (∀ d k, Instr.split 59#8 ≠ .glyph d k)
    ∧ (∀ h m x f, Instr.split 59#8 ≠ .render h m x f) ∧ (∀ k, Instr.split 59#8 ≠ .ledrd k) := by
  simp

/-- GlyphReadsRomBit, LedrdReadsTheBuffer, RenderWritesTheFrame: the first refused values, and the last
accepted ones. -/
theorem witness_table_edges : 10 ≤ (10#8).toNat ∧ 20 ≤ (20#8).toNat ∧ 128 ≤ (128#8).toNat
    ∧ 100 ≤ (100#8).toNat ∧ (99#8).toNat < 100 ∧ (19#8).toNat < 20 := by decide

/-- RenderWritesTheFrame: for 12:34:56 each of the six zones has its digit. -/
theorem witness_zone_digits : (1 : Fin 10).val = (12#8).toNat / 10 ∧ (2 : Fin 10).val = (12#8).toNat % 10
    ∧ (3 : Fin 10).val = (34#8).toNat / 10 ∧ (4 : Fin 10).val = (34#8).toNat % 10
    ∧ (5 : Fin 10).val = (56#8).toNat / 10 ∧ (6 : Fin 10).val = (56#8).toNat % 10 := by decide

/-- FrameLightsExactlyTheGlyphBits, EntryBlackExactlyWhenUnlit, OnlyAcceptedRenderWritesState,
PhaseCountsAcceptedFrames: an accepted RENDER reaches a next state, and it changes PHASE. -/
theorem witness_accepted_render : TimeInTable 99#8 0#8 99#8 ∧
    ∃ t t', exec (.render 99#8 0#8 99#8 true) (st []) = .next t ∧ t.phase ≠ (st []).phase
      ∧ exec (.render 99#8 0#8 99#8 true) { st [] with phase := 7#16 } = .next t' :=
  ⟨by decide, _, _, rfl, by decide, rfl⟩

/-- NothingOfThePreviousFrameSurvives: two states with one phase and different buffers. -/
theorem witness_two_buffers :
    (st []).phase = ({ st [] with led := Vector.replicate 128 0#24 } : State).phase
    ∧ (st []).led ≠ ({ st [] with led := Vector.replicate 128 0#24 } : State).led
    ∧ (∃ t, exec (.render 1#8 2#8 3#8 true) (st []) = .next t)
    ∧ ∃ t, exec (.render 1#8 2#8 3#8 true) { st [] with led := Vector.replicate 128 0#24 } = .next t :=
  ⟨rfl, by decide +kernel, ⟨_, rfl⟩, ⟨_, rfl⟩⟩

/-- LedrdReadsTheUnchangedEntry: commands between, none of them a RENDER, one of them refused. -/
theorem witness_commands_between :
    (∀ j ∈ [Instr.decsec 0xD9#8, .glyph 10#8 0#8, .ledrd 3#8], ∀ h m x f, j ≠ .render h m x f)
    ∧ ∃ t, [Instr.decsec 0xD9#8, .glyph 10#8 0#8, .ledrd 3#8].foldlM (fun u j => match exec j u with
      | .next u' => some u'
      | .fault _ => none
      | .refused _ => none) (st []) = some t :=
  ⟨by simp, _, rfl⟩

/-- RefusedInExactlyTheListedCases, EveryRefusalLooksTheSame: a word for each of the cases (a) to (e), at
the first refused value, and the accepted neighbour of each. -/
theorem witness_refused_words :
    RefusedWord 0xC0000000#32 ∧ RefusedWord 0x120000D9#32 ∧ RefusedWord 0x9000000A#32
    ∧ RefusedWord 0x90140008#32 ∧ RefusedWord 0xA0000064#32 ∧ RefusedWord 0xA0006400#32
    ∧ RefusedWord 0xA0640000#32 ∧ RefusedWord 0xB0800000#32
    ∧ ¬ RefusedWord 0xB07F0000#32 ∧ ¬ RefusedWord 0x100000D9#32 ∧ ¬ RefusedWord 0x90130009#32
    ∧ ¬ RefusedWord 0xA1636363#32 := by
  refine ⟨?_, ?_, ?_, ?_, ?_, ?_, ?_, ?_, ?_, ?_, ?_, ?_⟩ <;> unfold RefusedWord <;> decide

/-- ReservedWordsAreTheWholeReservedSpace: both ways to be reserved. -/
theorem witness_reserved_words : ((0x120000D9#32).extractLsb' 25 3 ≠ 0#3)
    ∧ 12 ≤ ((0xC0000000#32).extractLsb' 28 4).toNat := by decide

/-- UnusedFieldsAreIgnored, StepRunsThePresentedCommand, RefusedInExactlyTheListedCases: a presented word
that decodes, and another word with the same used bits. -/
theorem witness_presented_word : (st [0x11FFFFD9#32]).cmds = 0x11FFFFD9#32 :: []
    ∧ decode 0x11FFFFD9#32 = .ok (.decsec 0xD9#8)
    ∧ 0x100000D9#32 &&& usedMask (.decsec 0xD9#8) = 0x11FFFFD9#32 &&& usedMask (.decsec 0xD9#8) :=
  ⟨rfl, rfl, by decide⟩

/-- NoCommandNoEffect. -/
theorem witness_no_command : (st []).cmds = [] := rfl

/-- StepKeepsWholeFrames: a state with the invariant in which a RENDER is presented. -/
theorem witness_invariant : Inv { State.reset with cmds := [0xA138220C#32] }
    ∧ ∃ t, step { State.reset with cmds := [0xA138220C#32] } = .next t :=
  ⟨⟨.inl ⟨rfl, rfl⟩, by intro o h; cases h⟩, _, rfl⟩

/-- The driver statements: records with the answers that each sequence consumes. -/
theorem witness_answers :
    (sys true [.opened, .opened, .byte 0xD9#8]).answers = .opened :: .opened :: .byte 0xD9#8 :: []
    ∧ (sys true [.opened]).answers = .opened :: []
    ∧ (sys true [.opened, .opened, .byte 0x31#8, .opened]).answers =
        .opened :: .opened :: .byte 0x31#8 :: .opened :: []
    ∧ (sys false [.opened, .opened, .opened, .byte 0x59#8, .opened]).answers =
        .opened :: .opened :: .opened :: .byte 0x59#8 :: .opened :: []
    ∧ (sys true [.openFailed 7]).answers = .openFailed 7 :: []
    ∧ (sys true []).probed = true ∧ (sys false []).probed = false := by decide

/-- SequencesNeverWriteTheBuffer: a sequence that completes. -/
theorem witness_sequence : (∀ w, HostOp.getsec ≠ .command w)
    ∧ ∃ r sys', (runOp .getsec).run (sys true [.opened, .opened, .byte 0xD9#8]) = .ok (r, sys') :=
  ⟨by simp, _, _, rfl⟩

end Sys2Proof.Tests
end

section
/-! SUPPORT. The family State (10_state.md): what a command and a step leave of PHASE, LED and the port,
what a whole frame determines, and what the driver's sequences leave unchanged. -/

namespace Sys2Proof

/-- The decoder reads every command back from its word. -/
@[simp] theorem decode_encode (i : Instr) : decode (encode i) = .ok i := by
  cases i <;> simp [decode, decodeOp, encode]

end Sys2Proof

namespace Sys2Proof.Machine

open Sys2Proof

/-! ### Whole frames -/

/-- RENDER's loops leave one whole frame, whatever the buffer held (R116). -/
theorem isFrame_renderFrame (cfg : Config) (p : Phase) (t : Shown) (led : Vector Color 128) :
    IsFrame cfg p t (renderFrame cfg p t led) := by
  intro z k hk
  rw [Vector.getElem?_eq_getElem (cfg.zone_index_lt hk), renderFrame_getElem cfg p t led hk]
  cases zoneLit cfg t z k
  · simp
  · simp [ledColor_lit]

/-- The zones cover the buffer (R112), so a whole frame is determined by its phase and what it shows. -/
theorem IsFrame.led_unique {cfg : Config} {p : Phase} {t : Shown} {led led' : Vector Color 128}
    (h : IsFrame cfg p t led) (h' : IsFrame cfg p t led') : led = led' := by
  refine Vector.ext fun j hj => ?_
  obtain ⟨z, k, hk, rfl⟩ := cfg.exists_zone_place hj
  have hsame := (h z k hk).trans (h' z k hk).symm
  rwa [Vector.getElem?_eq_getElem hj, Vector.getElem?_eq_getElem hj, Option.some_inj] at hsame

/-- WholeFrame speaks of PHASE and LED only. -/
theorem WholeFrame.congr {s t : State} (hs : WholeFrame s) (hp : t.phase = s.phase)
    (hl : t.led = s.led) : WholeFrame t := by
  simpa only [WholeFrame, hp, hl] using hs

theorem wholeFrame_renderState (t : Shown) (s : State) :
    WholeFrame (renderState Config.machine t s) := by
  refine .inr ⟨t, ?_⟩
  rw [renderState_phase, renderState_led]
  exact isFrame_renderFrame _ _ _ _

/-! ### The invariant -/

/-- Outputs that accept the command, or a refusal's `res` = 0, are lawful. -/
theorem lawfulOutputs_of_out {s : State} {o : Output} (h : s.out = some o)
    (ho : o.ill = true → o.res = 0#24) : LawfulOutputs s := by
  intro o' h'
  obtain rfl : o = o' := Option.some_inj.1 (h.symm.trans h')
  exact ho

theorem lawfulOutputs_of_none {s : State} (h : s.out = none) : LawfulOutputs s := by
  intro o ho
  simp [h] at ho

theorem WholeFrame.inv_idle {s : State} (hs : WholeFrame s) : Inv (idle s) :=
  ⟨hs.congr (idle_phase s) (idle_led s), lawfulOutputs_of_none (idle_out s)⟩

theorem WholeFrame.inv_deliver {s : State} (hs : WholeFrame s) (v : Res) : Inv (deliver v s) :=
  ⟨hs.congr (deliver_phase v s) (deliver_led v s), lawfulOutputs_of_out (deliver_out v s) (by simp)⟩

theorem WholeFrame.inv_refuseCommand {s : State} (hs : WholeFrame s) : Inv (refuseCommand s) :=
  ⟨hs.congr (refuseCommand_phase s) (refuseCommand_led s),
    lawfulOutputs_of_out (refuseCommand_out s) fun _ => rfl⟩

theorem inv_renderState (t : Shown) (s : State) : Inv (renderState Config.machine t s) :=
  ⟨wholeFrame_renderState t s, lawfulOutputs_of_out (renderState_out ..) (by simp)⟩

/-- Settles O38, by the four things a step can do: three keep PHASE and LED, and a frame is whole. -/
theorem stepKeepsWholeFrames : Obligations.StepKeepsWholeFrames := by
  intro s t hs ht
  rcases step_cases s with
    ⟨-, he⟩ | ⟨w, rest, -, ⟨v, he⟩ | he | ⟨h, m, x, f, ok, -, he⟩⟩ <;>
    obtain rfl := Host.Outcome.next.inj (he.symm.trans ht)
  · exact hs.wholeFrame.inv_idle
  · exact (hs.wholeFrame.congr (t := { s with cmds := rest }) rfl rfl).inv_deliver v
  · exact (hs.wholeFrame.congr (t := { s with cmds := rest }) rfl rfl).inv_refuseCommand
  · exact inv_renderState ..

/-- Settles O39: PHASE and LED are the open parameters, and nothing is driven. -/
theorem resetHasWholeFrame : Obligations.ResetHasWholeFrame :=
  ⟨.inl ⟨rfl, rfl⟩, lawfulOutputs_of_none rfl⟩

/-- Settles O22: both buffers are the one whole frame of the time at the phase after the common one. -/
theorem nothingOfThePreviousFrameSurvives : Obligations.NothingOfThePreviousFrameSurvives := by
  intro h m x f s s' t t' ok hp ht ht'
  rw [exec_render f ok] at ht ht'
  cases ht
  cases ht'
  simp only [renderState_phase, renderState_led, hp, and_true]
  exact (isFrame_renderFrame _ _ _ _).led_unique (isFrame_renderFrame _ _ _ _)

/-! ### What a command leaves unchanged -/

/-- A command other than RENDER drives the outputs and does nothing else. -/
theorem exec_of_not_render {i : Instr} (hi : ∀ h m x f, i ≠ .render h m x f) (s : State) :
    (∃ v, exec i s = .next (deliver v s)) ∨ exec i s = .next (refuseCommand s) := by
  rcases exec_cases i s with he | he | ⟨h, m, x, f, -, hr, -⟩
  · exact .inl he
  · exact .inr he
  · exact absurd hr (hi h m x f)

/-- The frame of a command other than RENDER. -/
theorem exists_exec_frame_of_not_render {i : Instr} (hi : ∀ h m x f, i ≠ .render h m x f) (s : State) :
    ∃ t, exec i s = .next t ∧ t.phase = s.phase ∧ t.led = s.led ∧ t.cmds = s.cmds := by
  rcases exec_of_not_render hi s with ⟨v, he⟩ | he
  · exact ⟨_, he, deliver_phase v s, deliver_led v s, deliver_cmds v s⟩
  · exact ⟨_, he, refuseCommand_phase s, refuseCommand_led s, refuseCommand_cmds s⟩

theorem exists_exec_phase_of_not_render {i : Instr} (hi : ∀ h m x f, i ≠ .render h m x f) (s : State) :
    ∃ t, exec i s = .next t ∧ t.phase.toNat = s.phase.toNat := by
  obtain ⟨t, ht, hp, -, -⟩ := exists_exec_frame_of_not_render hi s
  exact ⟨t, ht, congrArg BitVec.toNat hp⟩

/-- A RENDER completes and counts in PHASE exactly when it is accepted (R12, R116). -/
theorem exists_exec_render_phase (h m x : Byte) (f : Bool) (s : State) :
    ∃ t, exec (.render h m x f) s = .next t ∧ t.phase.toNat =
      if TimeInTable h m x then (s.phase.toNat + 1) % 2 ^ 16 else s.phase.toNat := by
  by_cases ok : TimeInTable h m x
  · exact ⟨_, exec_render f ok s, by rw [renderState_phase, advancePhase_toNat, if_pos ok]⟩
  · exact ⟨_, exec_render_refused f ok s, by rw [refuseCommand_phase, if_neg ok]⟩

/-- Which of the three things a command does, and the value it delivers, are the same at every PHASE (R12). -/
theorem exec_cases_any_phase (i : Instr) (s : State) :
    (∃ v, ∀ p, exec i { s with phase := p } = .next (deliver v { s with phase := p }))
    ∨ (∀ p, exec i { s with phase := p } = .next (refuseCommand { s with phase := p }))
    ∨ ∃ t, ∀ p, exec i { s with phase := p } =
        .next (renderState Config.machine t { s with phase := p }) := by
  cases i with
  | glyph digit index =>
    by_cases h : GlyphInTable digit index
    · exact .inl ⟨_, fun _ => exec_glyph h _⟩
    · exact .inr (.inl fun _ => exec_glyph_refused h _)
  | render hours minutes seconds colon =>
    by_cases h : TimeInTable hours minutes seconds
    · exact .inr (.inr ⟨_, fun _ => exec_render colon h _⟩)
    · exact .inr (.inl fun _ => exec_render_refused colon h _)
  | ledrd index =>
    by_cases h : LedInBuffer index
    · exact .inl ⟨ledRead s ⟨index.toNat, h⟩, fun _ => exec_ledrd h _⟩
    · exact .inr (.inl fun _ => exec_ledrd_refused h _)
  | decbcd | decsec | decmin | dechrs | encsec | encmin | enchrs | setbit | split =>
    exact .inl ⟨_, fun _ => rfl⟩

/-- What a command drives is the same at every PHASE (R12). -/
theorem exists_out_of_any_phase (i : Instr) (s : State) :
    ∃ o, ∀ (p : Phase) (t : State), exec i { s with phase := p } = .next t → t.out = some o := by
  rcases exec_cases_any_phase i s with ⟨v, he⟩ | he | ⟨shown, he⟩
  · exact ⟨_, fun p t ht => Host.Outcome.next.inj ((he p).symm.trans ht) ▸ deliver_out v _⟩
  · exact ⟨_, fun p t ht => Host.Outcome.next.inj ((he p).symm.trans ht) ▸ refuseCommand_out _⟩
  · exact ⟨_, fun p t ht => Host.Outcome.next.inj ((he p).symm.trans ht) ▸ renderState_out _ shown _⟩

/-- A CODEC operation or SPLIT delivers one value in every state (R85, R114). -/
theorem exists_delivers_everywhere {i : Instr} (hg : ∀ d k, i ≠ .glyph d k)
    (hr : ∀ h m x f, i ≠ .render h m x f) (hl : ∀ k, i ≠ .ledrd k) : ∃ v, ∀ s, Delivers i s v := by
  cases i with
  | glyph digit index => exact absurd rfl (hg digit index)
  | render hours minutes seconds colon => exact absurd rfl (hr hours minutes seconds colon)
  | ledrd index => exact absurd rfl (hl index)
  | decbcd | decsec | decmin | dechrs | encsec | encmin | enchrs | setbit | split =>
    exact ⟨_, fun _ => rfl⟩

/-- Settles O25: RENDER by its own equation, every other command by its frame, the outputs by
`exists_out_of_any_phase` at the two phases. -/
theorem phaseCountsAcceptedFrames : Obligations.PhaseCountsAcceptedFrames := by
  intro i s
  constructor
  · cases i with
    | render h m x f => exact exists_exec_render_phase h m x f s
    | decbcd | decsec | decmin | dechrs | encsec | encmin | enchrs | setbit | split | glyph | ledrd =>
      exact exists_exec_phase_of_not_render (by simp) s
  · intro p t t' ht ht'
    obtain ⟨o, ho⟩ := exists_out_of_any_phase i s
    rw [ho s.phase t ht, ho p t' ht']

/-- Settles O26: of the three things a command can do, only rendering touches PHASE and LED. -/
theorem onlyAcceptedRenderWritesState : Obligations.OnlyAcceptedRenderWritesState := by
  intro i s t ht
  rcases exec_cases i s with ⟨v, he⟩ | he | ⟨h, m, x, f, ok, hi, he⟩ <;>
    obtain rfl := Host.Outcome.next.inj (he.symm.trans ht)
  · simp
  · simp
  · exact ⟨renderState_cmds .., fun _ => ⟨h, m, x, f, hi, ok⟩⟩

/-- Settles O14: the value that is delivered everywhere is delivered in both states. -/
theorem codecAndSplitDependOnNoState : Obligations.CodecAndSplitDependOnNoState := by
  intro i s s' hg hr hl
  obtain ⟨v, hv⟩ := exists_delivers_everywhere hg hr hl
  exact ⟨v, hv s, hv s'⟩

/-- Settles O37: the word placed at the port is taken at once and decodes to its command. -/
theorem resetStateIsReady : Obligations.ResetStateIsReady := by
  refine ⟨rfl, rfl, rfl, fun i => ?_⟩
  rw [step_withFetchWord, accept_of_decode (decode_encode i)]

end Sys2Proof.Machine

namespace Sys2Proof.Machine.Driver

open Sys2Proof Sys2Proof.Machine

/-! ### What the driver's sequences leave unchanged -/

/-- The block holds what it held, and what was on record stays on record, first. -/
structure KeepsBlock (sys sys' : System) : Prop where
  phase : sys'.block.phase = sys.block.phase
  led : sys'.block.led = sys.block.led
  cmds : sys'.block.cmds = sys.block.cmds
  trace : sys.trace <+: sys'.trace

theorem KeepsBlock.trans {sys sys' sys'' : System} (h : KeepsBlock sys sys')
    (h' : KeepsBlock sys' sys'') : KeepsBlock sys sys'' :=
  ⟨h'.phase.trans h.phase, h'.led.trans h.led, h'.cmds.trans h.cmds, h.trace.trans h'.trace⟩

/-- A run that leaves the block and the trace alone. -/
theorem keepsBlock_of_eq {sys sys' : System} (hb : sys'.block = sys.block)
    (ht : sys'.trace = sys.trace) : KeepsBlock sys sys' :=
  ⟨by rw [hb], by rw [hb], by rw [hb], by rw [ht]⟩

/-- Whenever the sequence completes, it has kept the block. -/
def Quiet {α : Type} (x : Run α) : Prop :=
  ∀ sys sys' a, x.run sys = .ok (a, sys') → KeepsBlock sys sys'

section Combinators

variable {α β : Type}

theorem quiet_pure (a : α) : Quiet (pure a : Run α) := by
  intro sys sys' a' h
  cases h
  exact keepsBlock_of_eq rfl rfl

theorem quiet_throw (why : Stop) : Quiet (throw why : Run α) := by
  intro sys sys' a h
  cases h

theorem quiet_bind {x : Run α} {f : α → Run β} (hx : Quiet x) (hf : ∀ a, Quiet (f a)) :
    Quiet (x >>= f) := by
  intro sys sys'' b h
  obtain ⟨a, sys', h1, h2⟩ := run_bind_ok_inv h
  exact (hx sys sys' a h1).trans (hf a sys' sys'' b h2)

end Combinators

theorem quiet_emit (e : Event) : Quiet (emit e) := by
  intro sys sys' a h
  cases h
  exact ⟨rfl, rfl, rfl, List.prefix_append ..⟩

theorem quiet_noteProbe (ok : Bool) : Quiet (noteProbe ok) := by
  intro sys sys' a h
  cases h
  exact keepsBlock_of_eq rfl rfl

theorem quiet_suspendEvents (suspend : Bool) : Quiet (suspendEvents suspend) := by
  intro sys sys' a h
  cases h
  exact ⟨rfl, rfl, rfl, List.prefix_append ..⟩

theorem nextAnswer_run_nil {sys : System} (h : sys.answers = []) :
    nextAnswer.run sys = .error .noAnswer := by
  obtain ⟨block, answers, trace, probed, suspended⟩ := sys
  cases h
  rfl

theorem quiet_nextAnswer : Quiet nextAnswer := by
  intro sys sys' a h
  cases hs : sys.answers with
  | nil => rw [nextAnswer_run_nil hs] at h; cases h
  | cons answer rest =>
    rw [nextAnswer_run hs] at h
    cases h
    exact keepsBlock_of_eq rfl rfl

theorem quiet_afterProbe : Quiet afterProbe := by
  intro sys sys' a h
  cases hs : sys.probed with
  | false => rw [afterProbe_run_unprobed hs] at h; cases h
  | true =>
    rw [afterProbe_run_probed hs] at h
    cases h
    exact keepsBlock_of_eq rfl rfl

theorem quiet_busOpen (mode : Nat) : Quiet (busOpen mode) := by
  refine quiet_bind quiet_nextAnswer fun answer => ?_
  cases answer with
  | opened => exact quiet_bind (quiet_emit _) fun _ => quiet_pure _
  | openFailed code => exact quiet_bind (quiet_emit _) fun _ => quiet_pure _
  | byte b => exact quiet_throw _

theorem quiet_busOpenPresent (mode : Nat) : Quiet (busOpenPresent mode) := by
  refine quiet_bind (quiet_busOpen mode) fun result => ?_
  cases result with
  | ok => exact quiet_pure _
  | err code => exact quiet_throw _

theorem quiet_answeredByte : Quiet answeredByte := by
  refine quiet_bind quiet_nextAnswer fun answer => ?_
  cases answer with
  | byte b => exact quiet_pure b
  | opened => exact quiet_throw _
  | openFailed code => exact quiet_throw _

theorem quiet_readByteNoAck : Quiet readByteNoAck :=
  quiet_bind quiet_answeredByte fun _ => quiet_bind (quiet_emit _) fun _ => quiet_pure _

theorem quiet_rd (reg : Byte) : Quiet (rd reg) :=
  quiet_bind (quiet_busOpenPresent _) fun _ =>
  quiet_bind (quiet_emit _) fun _ =>
  quiet_bind (quiet_busOpenPresent _) fun _ =>
  quiet_bind quiet_readByteNoAck fun _ =>
  quiet_bind (quiet_emit _) fun _ => quiet_pure _

theorem quiet_wr (reg v : Byte) : Quiet (wr reg v) :=
  quiet_bind (quiet_busOpenPresent _) fun _ =>
  quiet_bind (quiet_emit _) fun _ =>
  quiet_bind (quiet_emit _) fun _ => quiet_emit _

/-- What a completed presentation of a word did: the block ran it, and its outputs are on record. -/
theorem issueWord_run_inv {w : Word} {sys sys' : System} {o : Output}
    (h : (issueWord w).run sys = .ok (o, sys')) :
    ∃ block, accept w sys.block = .next block
      ∧ sys' = { sys with block := block, trace := sys.trace ++ [.command w o] } := by
  simp only [issueWord, StateT.run] at h
  split at h
  · next block hb =>
    split at h
    · cases h
      exact ⟨block, hb, rfl⟩
    · cases h
  · cases h
  · cases h

/-- A command that is not RENDER, presented by the host, writes neither PHASE nor LED (R12, R13). -/
theorem quiet_issue {i : Instr} (hi : ∀ h m x f, i ≠ .render h m x f) : Quiet (issue i) := by
  intro sys sys' o h
  obtain ⟨block, hb, rfl⟩ := issueWord_run_inv h
  rw [accept_of_decode (decode_encode i)] at hb
  obtain ⟨t, ht, hp, hl, hc⟩ := exists_exec_frame_of_not_render hi sys.block
  obtain rfl := Host.Outcome.next.inj (ht.symm.trans hb)
  exact ⟨hp, hl, hc, List.prefix_append ..⟩

theorem quiet_probe : Quiet probe := by
  refine quiet_bind (quiet_busOpen _) fun result => ?_
  cases result with
  | err code => exact quiet_bind (quiet_noteProbe false) fun _ => quiet_pure _
  | ok =>
    exact quiet_bind (quiet_emit _) fun _ =>
      quiet_bind (quiet_rd _) fun _ =>
      quiet_bind (quiet_issue (by simp)) fun _ =>
      quiet_bind (quiet_wr _ _) fun _ =>
      quiet_bind (quiet_noteProbe true) fun _ => quiet_pure _

/-- Read a register, then let the block decode the byte: GETSEC, GETMIN, GETHRS. -/
theorem quiet_read_then_issue {reg : Byte} {i : Byte → Instr}
    (hi : ∀ b h m x f, i b ≠ .render h m x f) :
    Quiet (do
      afterProbe
      let b ← rd reg
      let o ← issue (i b)
      return Result.value o.res) :=
  quiet_bind quiet_afterProbe fun _ =>
  quiet_bind (quiet_rd _) fun b =>
  quiet_bind (quiet_issue (hi b)) fun _ => quiet_pure _

/-- Let the block encode a byte, then write it to a register: SETSEC, SETMIN, SETHRS. -/
theorem quiet_issue_then_write {reg : Byte} {i : Instr} (hi : ∀ h m x f, i ≠ .render h m x f) :
    Quiet (do
      afterProbe
      let o ← issue i
      wr reg (resByte o)
      return Result.done) :=
  quiet_bind quiet_afterProbe fun _ =>
  quiet_bind (quiet_issue hi) fun _ =>
  quiet_bind (quiet_wr _ _) fun _ => quiet_pure _

theorem quiet_getctl : Quiet getctl :=
  quiet_bind quiet_afterProbe fun _ => quiet_bind (quiet_rd _) fun _ => quiet_pure _

/-- Write a byte to a register as it is: SETCTL, SETTRIM. -/
theorem quiet_write {reg v : Byte} :
    Quiet (do
      afterProbe
      wr reg v
      return Result.done) :=
  quiet_bind quiet_afterProbe fun _ => quiet_bind (quiet_wr _ _) fun _ => quiet_pure _

theorem quiet_setvbat (enabled : Bool) : Quiet (setvbat enabled) :=
  quiet_bind quiet_afterProbe fun _ =>
  quiet_bind (quiet_rd _) fun _ =>
  quiet_bind (quiet_issue (by simp)) fun _ =>
  quiet_bind (quiet_wr _ _) fun _ => quiet_pure _

theorem quiet_handOver (i : Byte) : Quiet (handOver i) :=
  quiet_bind (quiet_issue (by simp)) fun _ => quiet_emit _

theorem quiet_handOverAll (is : List Nat) : Quiet (handOverAll is) := by
  induction is with
  | nil => exact quiet_pure _
  | cons i rest ih => exact quiet_bind (quiet_handOver _) fun _ => ih

theorem quiet_flush : Quiet flush :=
  quiet_bind (quiet_suspendEvents true) fun _ =>
  quiet_bind (quiet_handOverAll _) fun _ =>
  quiet_bind (quiet_suspendEvents false) fun _ => quiet_pure _

/-- Every pseudo-operation keeps the block: only a word that the host presents can be a RENDER. -/
theorem quiet_runOp {op : HostOp} (hop : ∀ w, op ≠ .command w) : Quiet (runOp op) := by
  cases op with
  | command w => exact absurd rfl (hop w)
  | rd reg => exact quiet_bind (quiet_rd reg) fun _ => quiet_pure _
  | wr reg v => exact quiet_bind (quiet_wr reg v) fun _ => quiet_pure _
  | probe => exact quiet_probe
  | getsec => exact quiet_read_then_issue (by simp)
  | getmin => exact quiet_read_then_issue (by simp)
  | gethrs => exact quiet_read_then_issue (by simp)
  | setsec v osc => exact quiet_issue_then_write (by simp)
  | setmin v => exact quiet_issue_then_write (by simp)
  | sethrs v use12Hour => exact quiet_issue_then_write (by simp)
  | getctl => exact quiet_getctl
  | setctl v => exact quiet_write
  | setvbat enabled => exact quiet_setvbat enabled
  | settrim v => exact quiet_write
  | flush => exact quiet_flush

/-- Settles O48, by `quiet_runOp`: each sequence is put together from parts that keep the block. -/
theorem sequencesNeverWriteTheBuffer : Obligations.SequencesNeverWriteTheBuffer := by
  intro op sys sys' r hop h
  obtain ⟨hp, hl, hc, ht⟩ := quiet_runOp hop sys sys' r h
  exact ⟨hp, hl, hc, ht⟩

end Sys2Proof.Machine.Driver
end

section
/-! SUPPORT. The family Encoding (30_encoding.md): a word decodes to a command exactly when it is the
command's word on the bits the command uses; and what the block does with a word, by the word's decoding and
the command's well-formedness. -/

namespace Sys2Proof

/-! ### Words by their fields -/

@[simp] theorem opField_and (w m : Word) : opField (w &&& m) = opField w &&& opField m :=
  BitVec.extractLsb'_and

@[simp] theorem rsvField_and (w m : Word) : rsvField (w &&& m) = rsvField w &&& rsvField m :=
  BitVec.extractLsb'_and

@[simp] theorem fField_and (w m : Word) : fField (w &&& m) = (fField w && fField m) :=
  BitVec.getLsbD_and

@[simp] theorem cField_and (w m : Word) : cField (w &&& m) = cField w &&& cField m :=
  BitVec.extractLsb'_and

@[simp] theorem bField_and (w m : Word) : bField (w &&& m) = bField w &&& bField m :=
  BitVec.extractLsb'_and

@[simp] theorem aField_and (w m : Word) : aField (w &&& m) = aField w &&& aField m :=
  BitVec.extractLsb'_and

/-- A word is an assembled word exactly when its fields are the ones it is assembled from (R51). -/
theorem eq_assemble_iff {w : Word} {op : BitVec 4} {f : Bool} {c b a : Byte} :
    w = assemble op f c b a ↔ opField w = op ∧ rsvField w = 0#3 ∧ fField w = f ∧ cField w = c
      ∧ bField w = b ∧ aField w = a := by
  constructor
  · rintro rfl
    simp
  · rintro ⟨rfl, hr, rfl, rfl, rfl, rfl⟩
    exact (assemble_fields w hr).symm

/-! ### The bits a command uses -/

/-- All bits of an operand field if it is used, none if it is not. -/
def fieldMask (used : Bool) : Byte := if used then BitVec.allOnes 8 else 0#8

/-- The bits of `op`, of `rsv` and of the operand fields that are used (R51, R53). -/
def operandMask (f c b a : Bool) : Word :=
  0xFE000000#32 ||| assemble 0#4 f (fieldMask c) (fieldMask b) (fieldMask a)

theorem and_fieldMask (x : Byte) (used : Bool) : x &&& fieldMask used = if used then x else 0#8 := by
  cases used
  · exact BitVec.and_zero
  · exact BitVec.and_allOnes

theorem operandMask_fields : ∀ f c b a : Bool,
    opField (operandMask f c b a) = BitVec.allOnes 4 ∧ rsvField (operandMask f c b a) = BitVec.allOnes 3
    ∧ fField (operandMask f c b a) = f ∧ cField (operandMask f c b a) = fieldMask c
    ∧ bField (operandMask f c b a) = fieldMask b ∧ aField (operandMask f c b a) = fieldMask a := by
  decide

/-- A word spells given fields on its used bits exactly when its used fields are the given ones and the
others are given as 0. -/
theorem and_operandMask_eq_assemble_iff {w : Word} {op : BitVec 4} {uf uc ub ua f : Bool} {c b a : Byte} :
    w &&& operandMask uf uc ub ua = assemble op f c b a ↔
      opField w = op ∧ rsvField w = 0#3 ∧ (fField w && uf) = f ∧ (if uc then cField w else 0#8) = c
        ∧ (if ub then bField w else 0#8) = b ∧ (if ua then aField w else 0#8) = a := by
  obtain ⟨hop, hrsv, hf, hc, hb, ha⟩ := operandMask_fields uf uc ub ua
  simp only [eq_assemble_iff, opField_and, rsvField_and, fField_and, cField_and, bField_and, aField_and,
    hop, hrsv, hf, hc, hb, ha, BitVec.and_allOnes, and_fieldMask]

/-- Which operand fields a command uses (R53), as its mask. -/
theorem usedMask_eq_operandMask (i : Instr) : usedMask i =
    match i with
    | .decbcd _ _ _ => operandMask false true true true
    | .decsec _ | .decmin _ | .dechrs _ | .encmin _ | .split _ => operandMask false false false true
    | .encsec _ _ | .enchrs _ _ => operandMask true false false true
    | .setbit _ _ _ => operandMask true true false true
    | .glyph _ _ => operandMask false true false true
    | .render _ _ _ _ => operandMask true true true true
    | .ledrd _ => operandMask false true false false := by
  cases i <;> rfl

/-- A word that decodes is its command's word on the used bits: `decodeOp` takes the used fields. -/
theorem and_usedMask_of_decode {w : Word} {i : Instr} (h : decode w = .ok i) :
    w &&& usedMask i = encode i := by
  by_cases hr : rsvField w = 0#3
  · rw [decode, if_pos hr, decodeOp] at h
    split at h <;> cases h <;> rename_i hop <;>
      simp only [usedMask_eq_operandMask, encode, and_operandMask_eq_assemble_iff] <;>
      simp [hr, ← BitVec.toNat_inj, hop]
  · rw [decode, if_neg hr] at h
    cases h

/-- Any word with a command's word on the used bits decodes to the command: the used fields are read off. -/
theorem decode_of_and_usedMask {w : Word} {i : Instr} (h : w &&& usedMask i = encode i) :
    decode w = .ok i := by
  rw [usedMask_eq_operandMask] at h
  cases i <;> obtain ⟨hop, hrsv, hf, hc, hb, ha⟩ := and_operandMask_eq_assemble_iff.1 h <;>
    simp_all [decode, decodeOp]

/-- R53: exactly the words that agree with a command's word on the used bits spell the command. -/
theorem decode_eq_ok_iff {w : Word} {i : Instr} : decode w = .ok i ↔ w &&& usedMask i = encode i :=
  ⟨and_usedMask_of_decode, decode_of_and_usedMask⟩

/-- Settles O32: on the used bits both words are the command's word. -/
theorem unusedFieldsAreIgnored : Obligations.UnusedFieldsAreIgnored := by
  intro w i h
  have hw := decode_eq_ok_iff.1 h
  exact ⟨hw.symm, fun w' hw' => decode_eq_ok_iff.2 (hw'.trans hw)⟩

/-- Settles O33, by evaluating each word and its decoding. -/
theorem exampleWordsSpellTheirCommands : Obligations.ExampleWordsSpellTheirCommands := by
  unfold Obligations.ExampleWordsSpellTheirCommands
  decide

/-! ### The reserved space -/

theorem exists_decodeOp_eq_error_iff (w : Word) :
    (∃ why, decodeOp w = .error why) ↔ 12 ≤ (opField w).toNat := by
  unfold decodeOp
  split
  case h_13 => exact iff_of_true ⟨_, rfl⟩ (by simp only [imp_false] at *; omega)
  all_goals exact iff_of_false (by simp) (by omega)

/-- R55: a word spells no command exactly when `rsv` is not 0 or `op` is 12 or more. -/
theorem exists_decode_eq_error_iff (w : Word) :
    (∃ why, decode w = .error why) ↔ rsvField w ≠ 0#3 ∨ 12 ≤ (opField w).toNat := by
  by_cases hr : rsvField w = 0#3
  · simp [decode, hr, exists_decodeOp_eq_error_iff]
  · simp [decode, hr]

end Sys2Proof

namespace Sys2Proof.Machine

open Sys2Proof

/-! ### Steps with a presented word -/

/-- A presented word that decodes runs its command. -/
theorem step_of_decode {s : State} {w : Word} {rest : List Word} {i : Instr} (hs : s.cmds = w :: rest)
    (hw : decode w = .ok i) : step s = exec i { s with cmds := rest } :=
  (step_of_cons hs).trans (accept_of_decode hw _)

/-- A presented word that spells no command is refused. -/
theorem step_of_decode_error {s : State} {w : Word} {rest : List Word} {why : DecodeError}
    (hs : s.cmds = w :: rest) (hw : decode w = .error why) :
    step s = .next (refuseCommand { s with cmds := rest }) :=
  (step_of_cons hs).trans (accept_of_error hw _)

/-- Settles O31: the decoder reads the command back, and 32 bits hold the whole word. -/
theorem decodeOfEncode : Obligations.DecodeOfEncode := by
  intro i s rest
  refine ⟨decode_encode i, ?_, step_of_decode rfl (decode_encode i)⟩
  simp [decodeTableWord, tableWord_toNat, Except.toOption]

/-- Settles O28, by `exists_decode_eq_error_iff`; such a word is refused at the port. -/
theorem reservedWordsAreTheWholeReservedSpace : Obligations.ReservedWordsAreTheWholeReservedSpace := by
  refine ⟨exists_decode_eq_error_iff, fun w rest s hs hw => ?_⟩
  obtain ⟨why, hwhy⟩ := (exists_decode_eq_error_iff w).2 hw
  exact step_of_decode_error hs hwhy

/-- Settles O34. -/
theorem stepRunsThePresentedCommand : Obligations.StepRunsThePresentedCommand :=
  fun _ _ _ _ hs hw => step_of_decode hs hw

/-- Settles O35, by the four things a step can do. -/
theorem everyStepCompletes : Obligations.EveryStepCompletes := by
  intro s
  rcases step_cases s with
    ⟨hs, he⟩ | ⟨w, rest, hs, ⟨v, he⟩ | he | ⟨h, m, x, f, ok, -, he⟩⟩ <;>
    exact ⟨_, he, by simp [hs], by simp [hs]⟩

/-! ### Acceptance by value -/

theorem wellFormed_glyph_iff (digit index : Byte) :
    (Instr.glyph digit index).wellFormed = true ↔ GlyphInTable digit index := by
  simp [Instr.wellFormed, Instr.problems]

theorem wellFormed_render_iff (hours minutes seconds : Byte) (colon : Bool) :
    (Instr.render hours minutes seconds colon).wellFormed = true ↔ TimeInTable hours minutes seconds := by
  simp [Instr.wellFormed, Instr.problems]

theorem wellFormed_ledrd_iff (index : Byte) :
    (Instr.ledrd index).wellFormed = true ↔ LedInBuffer index := by
  simp [Instr.wellFormed, Instr.problems]

/-- A well-formed command drives a result with `ill` = 0. -/
theorem exec_of_wellFormed {i : Instr} (hi : i.wellFormed = true) (s : State) :
    ∃ t v, exec i s = .next t ∧ t.out = some { res := v, ill := false } ∧ t.cmds = s.cmds := by
  cases i with
  | glyph digit index =>
    exact ⟨_, _, exec_glyph ((wellFormed_glyph_iff digit index).1 hi) s, deliver_out .., deliver_cmds ..⟩
  | render hours minutes seconds colon =>
    have ok := (wellFormed_render_iff hours minutes seconds colon).1 hi
    exact ⟨_, _, exec_render colon ok s, renderState_out .., renderState_cmds ..⟩
  | ledrd index =>
    exact ⟨_, _, exec_ledrd ((wellFormed_ledrd_iff index).1 hi) s, deliver_out .., deliver_cmds ..⟩
  | decbcd | decsec | decmin | dechrs | encsec | encmin | enchrs | setbit | split =>
    exact ⟨_, _, rfl, deliver_out .., deliver_cmds ..⟩

/-- A command that is not well formed is refused; only GLYPH, RENDER and LEDRD can fail a check (R56). -/
theorem exec_of_not_wellFormed {i : Instr} (hi : ¬ i.wellFormed = true) (s : State) :
    exec i s = .next (refuseCommand s) := by
  cases i with
  | glyph digit index => exact exec_glyph_refused (mt (wellFormed_glyph_iff digit index).2 hi) s
  | render hours minutes seconds colon =>
    exact exec_render_refused colon (mt (wellFormed_render_iff hours minutes seconds colon).2 hi) s
  | ledrd index => exact exec_ledrd_refused (mt (wellFormed_ledrd_iff index).2 hi) s
  | decbcd | decsec | decmin | dechrs | encsec | encmin | enchrs | setbit | split =>
    exact absurd rfl hi

theorem computes_of_next {i : Instr} {s t : State} {o : Output} (he : exec i s = .next t)
    (ho : t.out = some o) : computes i s = if o.ill then none else some o.res := by
  simp [computes, he, ho]

/-- Settles O30, by what a command does when it is well formed and when it is not. -/
theorem wellFormedExactlyWhenAccepted : Obligations.WellFormedExactlyWhenAccepted := by
  intro i s
  by_cases hi : i.wellFormed = true
  · obtain ⟨t, v, he, ho, -⟩ := exec_of_wellFormed hi s
    simp [hi, computes_of_next he ho]
  · simp [hi, computes_of_next (exec_of_not_wellFormed hi s) (refuseCommand_out s)]

/-! ### The refused words -/

/-- R56 (a) to (e) by the word's fields: the first two cases are the reserved space. -/
theorem refusedWord_iff_fields (w : Word) : RefusedWord w ↔
    (rsvField w ≠ 0#3 ∨ 12 ≤ (opField w).toNat)
    ∨ (opField w = 9#4 ∧ ¬ GlyphInTable (aField w) (cField w))
    ∨ (opField w = 10#4 ∧ ¬ TimeInTable (aField w) (bField w) (cField w))
    ∨ (opField w = 11#4 ∧ ¬ LedInBuffer (cField w)) := by
  simp only [RefusedWord, GlyphInTable, TimeInTable, LedInBuffer, ne_eq, ← BitVec.toNat_inj, opField_toNat,
    rsvField_toNat, aField_toNat, bField_toNat, cField_toNat, BitVec.toNat_ofNat]
  omega

theorem refusedWord_of_decode_error {w : Word} {why : DecodeError} (hw : decode w = .error why) :
    RefusedWord w :=
  (refusedWord_iff_fields w).2 (.inl ((exists_decode_eq_error_iff w).1 ⟨why, hw⟩))

/-- A word that spells a command is refused exactly when the command is not well formed. -/
theorem refusedWord_iff_of_decode {w : Word} {i : Instr} (hw : decode w = .ok i) :
    RefusedWord w ↔ ¬ i.wellFormed = true := by
  have hfields := decode_eq_ok_iff.1 hw
  rw [usedMask_eq_operandMask] at hfields
  rw [refusedWord_iff_fields]
  cases i with
  | glyph digit index =>
    obtain ⟨hop, hrsv, -, rfl, -, rfl⟩ := and_operandMask_eq_assemble_iff.1 hfields
    simp [hop, hrsv, wellFormed_glyph_iff]
  | render hours minutes seconds colon =>
    obtain ⟨hop, hrsv, -, rfl, rfl, rfl⟩ := and_operandMask_eq_assemble_iff.1 hfields
    simp [hop, hrsv, wellFormed_render_iff]
  | ledrd index =>
    obtain ⟨hop, hrsv, -, rfl, -⟩ := and_operandMask_eq_assemble_iff.1 hfields
    simp [hop, hrsv, wellFormed_ledrd_iff]
  | decbcd | decsec | decmin | dechrs | encsec | encmin | enchrs | setbit | split =>
    obtain ⟨hop, hrsv, -⟩ := and_operandMask_eq_assemble_iff.1 hfields
    simp [hop, hrsv, Instr.wellFormed, Instr.problems]

/-- Settles O27: a word that spells no command is refused at the port, a command that is not well formed by
its meaning, and both are the listed cases. -/
theorem refusedInExactlyTheListedCases : Obligations.RefusedInExactlyTheListedCases := by
  intro w rest s hs
  cases hw : decode w with
  | error why =>
    exact ⟨_, _, step_of_decode_error hs hw, refuseCommand_out _, refuseCommand_cmds _,
      by simp [refusedWord_of_decode_error hw], fun _ => ⟨rfl, refuseCommand_phase _, refuseCommand_led _⟩⟩
  | ok i =>
    rw [refusedWord_iff_of_decode hw, step_of_decode hs hw]
    by_cases hi : i.wellFormed = true
    · obtain ⟨t, v, he, ho, hc⟩ := exec_of_wellFormed hi { s with cmds := rest }
      exact ⟨t, _, he, ho, hc, by simp [hi], by simp⟩
    · exact ⟨_, _, exec_of_not_wellFormed hi _, refuseCommand_out _, refuseCommand_cmds _, by simp [hi],
        fun _ => ⟨rfl, refuseCommand_phase _, refuseCommand_led _⟩⟩

end Sys2Proof.Machine
end

section
/-! SUPPORT. The family CODEC decode (40_codec_decode.md): the decode results in the arithmetic of R70 to R73,
the low seven bits as all they read of the byte, and the caller's view of the packed hour form (R74). -/

namespace Sys2Proof.Machine

open Sys2Proof

/-! ### Fields of a byte -/

/-- A bit as a number. -/
theorem toNat_getLsbD {n : Nat} (x : BitVec n) (i : Nat) : (x.getLsbD i).toNat = x.toNat / 2 ^ i % 2 :=
  Nat.toNat_testBit ..

theorem getLsbD_eq_true_iff {n : Nat} (x : BitVec n) (i : Nat) :
    x.getLsbD i = true ↔ x.toNat / 2 ^ i % 2 = 1 := by
  rw [← toNat_getLsbD, Bool.toNat_eq_one]

/-- Setting bit 7 of a byte leaves the low seven bits. -/
theorem or_bit7_mod (a : Byte) : (a ||| 0x80#8).toNat % 2 ^ 7 = a.toNat % 2 ^ 7 := by
  rw [BitVec.toNat_or, Nat.or_mod_two_pow]
  exact Nat.or_zero _

/-- Clearing bit 7 of a byte leaves the low seven bits. -/
theorem and_low7_mod (a : Byte) : (a &&& 0x7F#8).toNat % 2 ^ 7 = a.toNat % 2 ^ 7 := by
  rw [BitVec.toNat_and, show (0x7F#8).toNat = 2 ^ 7 - 1 from rfl, Nat.and_two_pow_sub_one_eq_mod,
    Nat.mod_mod]

/-! ### The decode results in arithmetic -/

theorem bcdValue_fields (len : Nat) (a : Byte) :
    bcdValue (tensField len a) (onesField a) = a.toNat / 16 % 2 ^ len * 10 + a.toNat % 16 := by
  rw [bcdValue, tensField_eq, onesField_eq]

theorem decBcd_eq (a b c : Byte) :
    decBcd a b c = (a.toNat &&& b.toNat) / 2 ^ c.toNat * 10 + a.toNat % 16 := by
  rw [decBcd, bcdValue, onesField_eq, BitVec.toNat_and, Nat.shiftRight_eq_div_pow]

/-- A mask of `len` bits from bit 4 up, with shift 4, is the tens field of `len` bits (R75). -/
theorem decBcd_of_fieldMask {len : Nat} {mask : Byte} (hm : mask.toNat >>> 4 = 2 ^ len - 1) (a : Byte) :
    decBcd a mask 4#8 = bcdValue (tensField len a) (onesField a) := by
  have htens : (a &&& mask).toNat >>> 4 = tensField len a := by
    rw [BitVec.toNat_and, Nat.shiftRight_and_distrib, hm, Nat.and_two_pow_sub_one_eq_mod, tensField_eq,
      Nat.shiftRight_eq_div_pow]
  exact congrArg (bcdValue · _) htens

/-- The largest byte with its tens unmasked and unshifted gives the bound (R70). -/
theorem decBcd_le (a b c : Byte) : decBcd a b c ≤ 2565 := by
  have ha := a.isLt
  have htens : (a.toNat &&& b.toNat) / 2 ^ c.toNat ≤ a.toNat :=
    (Nat.div_le_self ..).trans Nat.and_le_left
  rw [decBcd_eq]
  omega

theorem decSixty_eq (a : Byte) : decSixty a = a.toNat / 16 % 8 * 10 + a.toNat % 16 :=
  bcdValue_fields 3 a

theorem decSixty_eq_decBcd (a : Byte) : decSixty a = decBcd a 0x70#8 4#8 :=
  (decBcd_of_fieldMask (len := 3) rfl a).symm

/-- R73 in twelve-hour layout. -/
theorem decHours_of_twelve {a : Byte} (h : a.getLsbD 6 = true) :
    decHours a = zextByte (packedTwelve (a.getLsbD 5) (bcdValue (tensField 1 a) (onesField a))) :=
  if_pos h

/-- R73 in twenty-four-hour layout. -/
theorem decHours_of_twentyFour {a : Byte} (h : a.getLsbD 6 = false) :
    decHours a = zextNat (bcdValue (tensField 2 a) (onesField a)) :=
  if_neg (Bool.eq_false_iff.1 h)

/-- The packed hour form on the result bus, as a number. -/
theorem zextByte_packedTwelve (merid : Bool) (value : Nat) :
    zextByte (packedTwelve merid value) = BitVec.ofNat 24 (0x20 + merid.toNat * 0x10 + value % 16) := by
  rw [zextByte_eq, packedTwelve_toNat]

theorem decHours_eq_of_twelve {a : Byte} (h : a.toNat / 64 % 2 = 1) : decHours a = BitVec.ofNat 24
    (0x20 + a.toNat / 32 % 2 * 0x10 + (a.toNat / 16 % 2 * 10 + a.toNat % 16) % 16) := by
  rw [decHours_of_twelve ((getLsbD_eq_true_iff a 6).2 h), zextByte_packedTwelve, toNat_getLsbD,
    bcdValue_fields]
  rfl

theorem decHours_eq_of_twentyFour {a : Byte} (h : a.toNat / 64 % 2 = 0) :
    decHours a = BitVec.ofNat 24 (a.toNat / 16 % 4 * 10 + a.toNat % 16) := by
  have h6 : a.getLsbD 6 = false := by
    rw [← Bool.toNat_eq_zero, toNat_getLsbD]
    exact h
  rw [decHours_of_twentyFour h6, bcdValue_fields]
  rfl

/-! ### Bit 7 plays no part -/

theorem decSixty_congr {a b : Byte} (h : a.toNat % 2 ^ 7 = b.toNat % 2 ^ 7) : decSixty a = decSixty b := by
  rw [decSixty_eq, decSixty_eq]
  omega

theorem decHours_congr {a b : Byte} (h : a.toNat % 2 ^ 7 = b.toNat % 2 ^ 7) : decHours a = decHours b := by
  have hlayout : a.toNat / 64 % 2 = b.toNat / 64 % 2 := by omega
  have hmerid : a.toNat / 32 % 2 = b.toNat / 32 % 2 := by omega
  have htens : a.toNat / 16 % 4 = b.toNat / 16 % 4 := by omega
  have htens1 : a.toNat / 16 % 2 = b.toNat / 16 % 2 := by omega
  have hones : a.toNat % 16 = b.toNat % 16 := by omega
  rcases Nat.mod_two_eq_zero_or_one (b.toNat / 64) with hb | hb
  · rw [decHours_eq_of_twentyFour hb, decHours_eq_of_twentyFour (hlayout.trans hb), htens, hones]
  · rw [decHours_eq_of_twelve hb, decHours_eq_of_twelve (hlayout.trans hb), hmerid, htens1, hones]

/-! ### What the decode operations compute -/

theorem computes_of_delivers {i : Instr} {s : State} {v : Res} (h : Delivers i s v) :
    computes i s = some v :=
  computes_of_next h rfl

@[simp] theorem computes_decbcd (a b c : Byte) (s : State) :
    computes (.decbcd a b c) s = some (zextNat (decBcd a b c)) :=
  computes_of_delivers (exec_decbcd a b c s)

@[simp] theorem computes_decsec (a : Byte) (s : State) :
    computes (.decsec a) s = some (zextNat (decSixty a)) :=
  computes_of_delivers (exec_decsec a s)

@[simp] theorem computes_decmin (a : Byte) (s : State) :
    computes (.decmin a) s = some (zextNat (decSixty a)) :=
  computes_of_delivers (exec_decmin a s)

@[simp] theorem computes_dechrs (a : Byte) (s : State) : computes (.dechrs a) s = some (decHours a) :=
  computes_of_delivers (exec_dechrs a s)

/-! ### The obligations on the four operations -/

/-- Settles O1, by `decBcd_eq`, its bound, and the row of `op` 0. -/
theorem decbcdGivesMaskedTensPlusOnes : Obligations.DecbcdGivesMaskedTensPlusOnes := by
  refine ⟨fun a b c s => ?_, fun a b c => ?_, fun w hw => ?_⟩
  · rw [← decBcd_eq]
    exact exec_decbcd a b c s
  · rw [← decBcd_eq]
    exact decBcd_le a b c
  · obtain ⟨hd, hop⟩ := decode_of_matches_row (op := 0x0#4) hw
    simp [hd, decodeOp, hop, aField, bField, cField]

/-- Settles O2: the tens field is the mask 0x70 shifted by 4, and it ends below bit 7. -/
theorem decsecGivesTensPlusOnes : Obligations.DecsecGivesTensPlusOnes := by
  refine ⟨fun a s => ⟨?_, ?_, ?_⟩, fun w hw => ?_⟩
  · rw [← decSixty_eq]
    exact exec_decsec a s
  · rw [exec_decsec, exec_decbcd, decSixty_eq_decBcd]
  · rw [exec_decsec, exec_decsec, decSixty_congr (or_bit7_mod a)]
  · obtain ⟨hd, hop⟩ := decode_of_matches_row (op := 0x1#4) hw
    simp [hd, decodeOp, hop, aField]

/-- Settles O3, as for DECSEC: the two operations have one value. -/
theorem decminGivesTensPlusOnes : Obligations.DecminGivesTensPlusOnes := by
  refine ⟨fun a s => ⟨?_, ?_⟩, fun w hw => ?_⟩
  · rw [← decSixty_eq]
    exact exec_decmin a s
  · rw [exec_decmin, exec_decmin, decSixty_congr (or_bit7_mod a)]
  · obtain ⟨hd, hop⟩ := decode_of_matches_row (op := 0x2#4) hw
    simp [hd, decodeOp, hop, aField]

/-- Settles O4, by the value of DECHRS in each layout and the row of `op` 3. -/
theorem dechrsGivesPackedHourForm : Obligations.DechrsGivesPackedHourForm := by
  refine ⟨fun a s h => ?_, fun a s h => ?_, fun w hw => ?_⟩
  · rw [← decHours_eq_of_twelve h]
    exact exec_dechrs a s
  · rw [← decHours_eq_of_twentyFour h]
    exact exec_dechrs a s
  · obtain ⟨hd, hop⟩ := decode_of_matches_row (op := 0x3#4) hw
    simp [hd, decodeOp, hop, aField]

/-- The low nibble of a result as the packed hour form takes it: the bus is wider than a nibble. -/
theorem zextNat_toNat_mod (v : Nat) : (zextNat v).toNat % 16 = v % 16 := by
  rw [zextNat, BitVec.toNat_ofNat]
  omega

/-- Settles O5: each tens field is a mask with shift 4, and every value is a function of the operands. -/
theorem decodeFamilyProperties : Obligations.DecodeFamilyProperties := by
  intro a s
  simp only [computes_decbcd, computes_decsec, computes_decmin, computes_dechrs, Option.map_some,
    Option.some_inj]
  refine ⟨trivial, ?_, ?_, ?_, fun h => ?_, fun h => ?_, by simp⟩
  · rw [decSixty_eq_decBcd]
  · rw [decSixty_congr (and_low7_mod a)]
  · exact (decHours_congr (and_low7_mod a)).symm
  · rw [decHours_of_twentyFour h, decBcd_of_fieldMask (len := 2) rfl]
  · rw [decHours_of_twelve h, zextByte_packedTwelve, zextNat_toNat_mod, decBcd_of_fieldMask (len := 1) rfl]
    cases a.getLsbD 5 <;> rfl

/-! ### The caller's view of the packed hour form -/

/-- The marker bit of the packed form says twelve-hour, and its fields are read back (R74). -/
theorem hourView_packedTwelve (merid : Bool) (value : Nat) :
    hourView (packedTwelve merid value) = .twelve merid (BitVec.ofNat 4 value) := by
  have hmarker : (packedTwelve merid value).getLsbD 5 = true := by
    simp only [packedTwelve, BitVec.getLsbD_append]
    rfl
  have hpm : (packedTwelve merid value).getLsbD 4 = merid := by
    simp only [packedTwelve, BitVec.getLsbD_append]
    cases merid <;> rfl
  have hval : (packedTwelve merid value).extractLsb' 0 4 = BitVec.ofNat 4 value :=
    BitVec.extractLsb'_append_eq_right
  rw [hourView, if_pos hmarker, hpm, hval]

/-- A plain value below 32 does not reach the marker bit (R74). -/
theorem hourView_ofNat {v : Nat} (h : v < 32) :
    hourView (BitVec.ofNat 8 v) = .twentyFour (BitVec.ofNat 8 v) := by
  have hmarker : (BitVec.ofNat 8 v).getLsbD 5 = false := by
    rw [BitVec.getLsbD_ofNat, Nat.testBit_lt_two_pow (i := 5) h, Bool.and_false]
  rw [hourView, if_neg (Bool.eq_false_iff.1 hmarker)]

theorem setWidth_zextByte (v : Byte) : (zextByte v).setWidth 8 = v := by
  simp [zextByte]

theorem setWidth_zextNat (v : Nat) : (zextNat v).setWidth 8 = BitVec.ofNat 8 v :=
  BitVec.setWidth_ofNat_of_le (by decide) v

/-- The hours field of a twelve-hour byte (R19) is the value that DECHRS packs. -/
theorem hoursField_of_twelve {a : Byte} (h : h12 a = true) :
    (hrten a).toNat * 10 + (hrone a).toNat = bcdValue (tensField 1 a) (onesField a) := by
  have htens : ((a.extractLsb' 4 1).setWidth 2).toNat = (a.extractLsb' 4 1).toNat :=
    BitVec.toNat_setWidth_of_le (by decide)
  rw [hrten, if_pos h, htens]
  rfl

/-- The hours field of a twenty-four-hour byte (R19) is the value that DECHRS returns. -/
theorem hoursField_of_twentyFour {a : Byte} (h : h12 a = false) :
    (hrten a).toNat * 10 + (hrone a).toNat = bcdValue (tensField 2 a) (onesField a) := by
  rw [hrten, if_neg (Bool.eq_false_iff.1 h)]
  rfl

/-- Settles O6: the packed form is read back whatever its value, and an hour up to 23 leaves the marker
bit clear. -/
theorem hourViewReadsBackValidHours : Obligations.HourViewReadsBackValidHours := by
  intro a s
  simp only [computes_dechrs, Option.map_some, Option.some_inj]
  refine ⟨fun h _ => ?_, fun h hv => ?_⟩
  · rw [hoursField_of_twelve h, decHours_of_twelve h, setWidth_zextByte, hourView_packedTwelve]
    rfl
  · rw [hoursField_of_twentyFour h] at hv ⊢
    rw [decHours_of_twentyFour h, setWidth_zextNat, hourView_ofNat (by omega)]

end Sys2Proof.Machine
end

section
/-! SUPPORT. The family CODEC encode (41_codec_encode.md): the packed bytes in the arithmetic of R80 to R82,
the bits of SETBIT's byte (R83), and the round trips between the encode and the decode operations (R87). -/

namespace Sys2Proof.Machine

open Sys2Proof

/-! ### The packed bytes in arithmetic -/

/-- A ones digit fits the ones nibble. -/
theorem onesOf_mod_sixteen (v : Byte) : onesOf v % 16 = onesOf v :=
  Nat.mod_eq_of_lt ((onesOf_lt v).trans (by decide))

/-- The byte of R80 in arithmetic; R81's is the same with the flag clear. -/
theorem encSixty_toNat (flag : Bool) (v : Byte) :
    (encSixty flag v).toNat = flag.toNat * 0x80 + v.toNat / 10 % 8 * 0x10 + v.toNat % 10 := by
  rw [encSixty, sixtyByte_toNat, onesOf_mod_sixteen, tensOf, onesOf]

/-- R82 in twelve-hour layout. -/
theorem encHours_twelve (v : Byte) :
    encHours v true = twelveHourByte (decide (12 < v.toNat)) (tensOf v) (onesOf v) :=
  if_pos rfl

/-- R82 in twenty-four-hour layout. -/
theorem encHours_twentyFour (v : Byte) :
    encHours v false = twentyFourHourByte (tensOf v) (onesOf v) :=
  if_neg Bool.false_ne_true

theorem encHours_twelve_toNat (v : Byte) : (encHours v true).toNat =
    0x40 + (if v.toNat > 12 then 1 else 0) * 0x20 + v.toNat / 10 % 2 * 0x10 + v.toNat % 10 := by
  rw [encHours_twelve, twelveHourByte_toNat, onesOf_mod_sixteen, tensOf, onesOf]
  by_cases h : 12 < v.toNat <;> simp [h]

theorem encHours_twentyFour_toNat (v : Byte) :
    (encHours v false).toNat = v.toNat / 10 % 4 * 0x10 + v.toNat % 10 := by
  rw [encHours_twentyFour, twentyFourHourByte_toNat, onesOf_mod_sixteen, tensOf, onesOf]

/-! ### The bits of SETBIT's byte -/

/-- SETBIT forces the addressed bit and keeps every other bit (R83). -/
theorem setBit_getLsbD (a c : Byte) (f : Bool) {i : Nat} (hi : i < 8) :
    (setBit a c f).getLsbD i = if i = c.toNat then f else a.getLsbD i := by
  cases f with
  | true =>
    rw [setBit, if_pos rfl, BitVec.getLsbD_or, bitMask_getLsbD c i hi]
    by_cases h : i = c.toNat <;> simp [h]
  | false =>
    rw [setBit, if_neg Bool.false_ne_true, BitVec.getLsbD_and, BitVec.getLsbD_not, bitMask_getLsbD c i hi]
    by_cases h : i = c.toNat <;> simp [h, hi]

/-- The second of two SETBITs on one index decides (R83, corner cases 2 and 5). -/
theorem setBit_setBit (a c : Byte) (f g : Bool) : setBit (setBit a c f) c g = setBit a c g := by
  apply BitVec.eq_of_getLsbD_eq
  intro i hi
  rw [setBit_getLsbD _ _ _ hi, setBit_getLsbD _ _ _ hi, setBit_getLsbD _ _ _ hi]
  by_cases h : i = c.toNat
  · rw [if_pos h, if_pos h]
  · rw [if_neg h, if_neg h, if_neg h]

/-- Forcing a bit to the value it has keeps the byte. -/
theorem setBit_eq_self {a c : Byte} {f : Bool} (h : a.getLsbD c.toNat = f) : setBit a c f = a := by
  apply BitVec.eq_of_getLsbD_eq
  intro i hi
  rw [setBit_getLsbD _ _ _ hi]
  split
  · next hc => rw [hc, h]
  · rfl

/-! ### The meridiem bit of a twelve-hour byte -/

theorem h12_twelveHourByte (pm : Bool) (tens ones : Nat) : h12 (twelveHourByte pm tens ones) = true := by
  have hpm := pm.toNat_lt
  rw [h12, getLsbD_eq_true_iff, twelveHourByte_toNat]
  omega

theorem merid_twelveHourByte (pm : Bool) (tens ones : Nat) :
    merid (twelveHourByte pm tens ones) = pm := by
  simp only [merid, twelveHourByte, BitVec.getLsbD_append]
  cases pm <;> rfl

/-- Every bit but bit 5 is the same in the AM and the PM byte of an hour. -/
theorem twelveHourByte_getLsbD_of_ne (pm pm' : Bool) (tens ones : Nat) {i : Nat} (hi : i ≠ 5) :
    (twelveHourByte pm tens ones).getLsbD i = (twelveHourByte pm' tens ones).getLsbD i := by
  simp only [twelveHourByte, BitVec.getLsbD_append]
  rcases Nat.lt_or_gt_of_ne hi with h | h
  · have hfield : i - 4 < 1 := by omega
    rw [if_pos hfield, if_pos hfield]
  · have hfield : ¬ i - 4 - 1 < 1 := by omega
    rw [if_neg hfield, if_neg hfield]

/-- SETBIT of bit 5 replaces the meridiem and no other field (R161). -/
theorem setBit_five_twelveHourByte (pm f : Bool) (tens ones : Nat) :
    setBit (twelveHourByte pm tens ones) 5#8 f = twelveHourByte f tens ones := by
  apply BitVec.eq_of_getLsbD_eq
  intro i hi
  rw [setBit_getLsbD _ _ _ hi]
  split
  · next h5 =>
    rw [show i = 5 from h5]
    exact (merid_twelveHourByte f tens ones).symm
  · next h5 => exact twelveHourByte_getLsbD_of_ne pm f tens ones h5

/-! ### Decoding the packed bytes -/

/-- The tens field holds every tens digit below 8 (R87). -/
theorem decSixty_encSixty (flag : Bool) {v : Byte} (h : v.toNat < 80) :
    decSixty (encSixty flag v) = v.toNat := by
  have hf := flag.toNat_lt
  rw [decSixty_eq, encSixty_toNat]
  omega

/-- The tens field holds every tens digit below 4, and the layout bit is clear (R87). -/
theorem decHours_encHours_twentyFour {v : Byte} (h : v.toNat < 40) :
    decHours (encHours v false) = BitVec.ofNat 24 v.toNat := by
  have hb := encHours_twentyFour_toNat v
  rw [decHours_eq_of_twentyFour (by omega), hb]
  congr 1
  omega

/-- The value of the fields of a twelve-hour byte: one tens bit, and the ones nibble (R19, R82). -/
theorem bcdValue_twelveHourByte (pm : Bool) (tens ones : Nat) :
    bcdValue (tensField 1 (twelveHourByte pm tens ones)) (onesField (twelveHourByte pm tens ones)) =
      tens % 2 * 10 + ones % 16 := by
  have hbyte := twelveHourByte_toNat pm tens ones
  have htens : (twelveHourByte pm tens ones).toNat / 16 % 2 ^ 1 = tens % 2 := by omega
  have hones : (twelveHourByte pm tens ones).toNat % 16 = ones % 16 := by omega
  rw [bcdValue_fields, htens, hones]

/-- The tens digit of 0..12 fits the one tens bit of a twelve-hour byte. -/
theorem twelveHour_digits {v : Byte} (h : v.toNat ≤ 12) :
    tensOf v % 2 * 10 + onesOf v % 16 = v.toNat := by
  have htens : tensOf v < 2 := Nat.div_lt_of_lt_mul (by omega)
  rw [Nat.mod_eq_of_lt htens, onesOf_mod_sixteen, tensOf, onesOf, Nat.div_add_mod']

/-- The twelve-hour byte of 0..12 decodes to the packed form of that value, AM or PM (R73, R161). -/
theorem decHours_twelveHourByte (pm : Bool) {v : Byte} (h : v.toNat ≤ 12) :
    decHours (twelveHourByte pm (tensOf v) (onesOf v)) =
      BitVec.ofNat 24 (0x20 + pm.toNat * 0x10 + v.toNat) := by
  have hpm : (twelveHourByte pm (tensOf v) (onesOf v)).getLsbD 5 = pm := merid_twelveHourByte ..
  rw [decHours_of_twelve (h12_twelveHourByte ..), zextByte_packedTwelve, hpm, bcdValue_twelveHourByte,
    twelveHour_digits h, Nat.mod_eq_of_lt (by omega)]

/-- The meridiem heuristic says AM up to 12 (R82). -/
theorem encHours_twelve_am {v : Byte} (h : v.toNat ≤ 12) :
    encHours v true = twelveHourByte false (tensOf v) (onesOf v) := by
  rw [encHours_twelve, decide_eq_false (Nat.not_lt.2 h)]

/-- A seconds byte is put together from its flag, its tens field and its ones field. -/
theorem byte_fields (b : Byte) :
    b.toNat / 2 ^ 7 % 2 * 0x80 + b.toNat / 16 % 8 * 0x10 + b.toNat % 16 = b.toNat := by
  have hb := b.isLt
  have hflag : b.toNat / 2 ^ 7 = b.toNat / 16 / 8 := (Nat.div_div_eq_div_mul _ 16 8).symm
  omega

/-- Encoding a decoded seconds byte restores it exactly when its ones nibble is a digit (R87). -/
theorem encSixty_decSixty_iff (b : Byte) :
    encSixty (b.getLsbD 7) (BitVec.ofNat 8 (decSixty b)) = b ↔ b.toNat % 16 ≤ 9 := by
  have hb := b.isLt
  have hv := decSixty_eq b
  have hfits : decSixty b < 2 ^ 8 := by omega
  rw [← BitVec.toNat_inj, encSixty_toNat, toNat_getLsbD, BitVec.toNat_ofNat, Nat.mod_eq_of_lt hfits]
  constructor
  · intro h
    omega
  · intro h
    have htens : decSixty b / 10 = b.toNat / 16 % 8 := by omega
    have hones : decSixty b % 10 = b.toNat % 16 := by omega
    rw [htens, hones, Nat.mod_mod, byte_fields]

/-! ### What the encode operations compute -/

@[simp] theorem computes_encsec (v : Byte) (f : Bool) (s : State) :
    computes (.encsec v f) s = some (zextByte (encSixty f v)) :=
  computes_of_delivers (exec_encsec v f s)

@[simp] theorem computes_encmin (v : Byte) (s : State) :
    computes (.encmin v) s = some (zextByte (encSixty false v)) :=
  computes_of_delivers (exec_encmin v s)

@[simp] theorem computes_enchrs (v : Byte) (f : Bool) (s : State) :
    computes (.enchrs v f) s = some (zextByte (encHours v f)) :=
  computes_of_delivers (exec_enchrs v f s)

@[simp] theorem computes_setbit (a c : Byte) (f : Bool) (s : State) :
    computes (.setbit a c f) s = some (zextByte (setBit a c f)) :=
  computes_of_delivers (exec_setbit a c f s)

theorem zextByte_inj {v w : Byte} : zextByte v = zextByte w ↔ v = w :=
  ⟨fun h => by rw [← setWidth_zextByte v, h, setWidth_zextByte], congrArg zextByte⟩

/-! ### The obligations -/

/-- Settles O7, by `encSixty_toNat` and the row of `op` 4. -/
theorem encsecPacksSeconds : Obligations.EncsecPacksSeconds := by
  refine ⟨fun a f s => ?_, fun w hw => ?_⟩
  · rw [← encSixty_toNat, ← zextByte_eq]
    exact exec_encsec a f s
  · obtain ⟨hd, hop⟩ := decode_of_matches_row (op := 0x4#4) hw
    simp [hd, decodeOp, hop, aField, fField]

/-- Settles O8: the byte of ENCSEC with the flag clear, and the row of `op` 5. -/
theorem encminPacksMinutes : Obligations.EncminPacksMinutes := by
  refine ⟨fun a s => ⟨?_, ?_⟩, fun w hw => ?_⟩
  · have hbyte : (encSixty false a).toNat = a.toNat / 10 % 8 * 0x10 + a.toNat % 10 := by
      simpa using encSixty_toNat false a
    rw [← hbyte, ← zextByte_eq]
    exact exec_encmin a s
  · rw [exec_encmin, exec_encsec]
  · obtain ⟨hd, hop⟩ := decode_of_matches_row (op := 0x5#4) hw
    simp [hd, decodeOp, hop, aField]

/-- Settles O9, by the byte of ENCHRS in each layout and the row of `op` 6. -/
theorem enchrsPacksHours : Obligations.EnchrsPacksHours := by
  refine ⟨fun a s => ?_, fun a s => ?_, fun w hw => ?_⟩
  · rw [← encHours_twelve_toNat, ← zextByte_eq]
    exact exec_enchrs a true s
  · rw [← encHours_twentyFour_toNat, ← zextByte_eq]
    exact exec_enchrs a false s
  · obtain ⟨hd, hop⟩ := decode_of_matches_row (op := 0x6#4) hw
    simp [hd, decodeOp, hop, aField, fField]

/-- Settles O10, by the bits of SETBIT's byte and the row of `op` 7. -/
theorem setbitForcesOneBit : Obligations.SetbitForcesOneBit := by
  refine ⟨fun a c f s => ⟨setBit a c f, ?_, fun i hi => setBit_getLsbD a c f hi⟩, fun w hw => ?_⟩
  · rw [← zextByte_eq]
    exact exec_setbit a c f s
  · obtain ⟨hd, hop⟩ := decode_of_matches_row (op := 0x7#4) hw
    simp [hd, decodeOp, hop, aField, cField, fField]

/-- Settles O11: the second SETBIT decides, and clearing a clear bit keeps the byte. -/
theorem setbitIsIdempotent : Obligations.SetbitIsIdempotent := by
  intro a c f g s s'
  simp only [computes_setbit, Option.bind_some, setWidth_zextByte, setBit_setBit, Option.some_inj]
  refine ⟨trivial, fun _ hclear => ?_⟩
  rw [setBit_eq_self hclear, zextByte_eq]

/-- Settles O12, by the round trip of each pair of operations; past the ranges by evaluation. -/
theorem codecRoundTrips : Obligations.CodecRoundTrips := by
  unfold Obligations.CodecRoundTrips
  simp only [computes_encsec, computes_encmin, computes_enchrs, computes_decsec, computes_decmin,
    computes_dechrs, Option.bind_some, setWidth_zextByte, setWidth_zextNat, Option.some_inj]
  refine ⟨fun v f _ _ hv => ?_, fun v _ _ hv => ?_, fun v _ _ hv => decHours_encHours_twentyFour hv,
    fun v _ _ _ hv => ?_, fun _ _ => by decide, fun b _ _ => ?_⟩
  · rw [decSixty_encSixty f hv, zextNat]
  · rw [decSixty_encSixty false hv, zextNat]
  · rw [encHours_twelve_am hv, decHours_twelveHourByte false hv]
    rfl
  · rw [← zextByte_eq, zextByte_inj, encSixty_decSixty_iff]

/-- Settles O13: ENCHRS packs 1..12 as AM, and SETBIT of bit 5 replaces the meridiem alone. -/
theorem twelveHourBytesReadBack : Obligations.TwelveHourBytesReadBack := by
  intro v s s' s'' _ hv
  have hlayout := h12_twelveHourByte false (tensOf v) (onesOf v)
  simp only [computes_enchrs, computes_setbit, computes_dechrs, Option.bind_some, setWidth_zextByte,
    encHours_twelve_am hv, setBit_five_twelveHourByte, decHours_twelveHourByte true hv]
  refine ⟨⟨_, congrArg some (zextByte_eq _), hlayout, merid_twelveHourByte .., ?_⟩, rfl⟩
  rw [hoursField_of_twelve hlayout, bcdValue_twelveHourByte, twelveHour_digits hv]

end Sys2Proof.Machine
end

section
/-! SUPPORT. The family Driver sequences (42_driver_sequences.md): the command words with their operand added,
what a presented command and each shape of sequence leaves on record, and FLUSH's hand-off. -/

namespace Sys2Proof

/-- The first operand of a command word, added to the word without it (R51). -/
theorem assemble_eq_add_aField (op : BitVec 4) (f : Bool) (c b a : Byte) :
    assemble op f c b a = assemble op f c b 0#8 + a.setWidth 32 := by
  have hword := (assemble op f c b a).isLt
  have ha : a.toNat < 2 ^ 32 := a.isLt.trans (by decide)
  apply BitVec.eq_of_toNat_eq
  rw [assemble_toNat] at hword
  rw [BitVec.toNat_add, assemble_toNat, assemble_toNat, BitVec.toNat_setWidth, Nat.mod_eq_of_lt ha,
    BitVec.toNat_ofNat, Nat.zero_mod, Nat.add_zero, Nat.mod_eq_of_lt hword]

theorem encode_decsec (b : Byte) : encode (.decsec b) = 0x10000000#32 + b.setWidth 32 :=
  assemble_eq_add_aField 0x1#4 false 0#8 0#8 b

theorem encode_decmin (b : Byte) : encode (.decmin b) = 0x20000000#32 + b.setWidth 32 :=
  assemble_eq_add_aField 0x2#4 false 0#8 0#8 b

theorem encode_dechrs (b : Byte) : encode (.dechrs b) = 0x30000000#32 + b.setWidth 32 :=
  assemble_eq_add_aField 0x3#4 false 0#8 0#8 b

/-- SETBIT of bit 7 to 1, the word that PROBE presents (R93). -/
theorem encode_setbit_seven (b : Byte) :
    encode (.setbit b 7#8 true) = 0x71070000#32 + b.setWidth 32 :=
  assemble_eq_add_aField 0x7#4 true 7#8 0#8 b

/-- LEDRD's index stands in the third operand (R118). -/
theorem encode_ledrd (i : Fin 128) :
    encode (.ledrd (BitVec.ofNat 8 i)) = 0xB0000000#32 + BitVec.ofNat 32 (i.val * 0x10000) := by
  have hi := i.isLt
  change assemble 0xB#4 false (BitVec.ofNat 8 i) 0#8 0#8 = _
  apply BitVec.eq_of_toNat_eq
  simp only [assemble_toNat, BitVec.toNat_add, BitVec.toNat_ofNat, Bool.toNat_false]
  omega

end Sys2Proof

namespace Sys2Proof.Machine

open Sys2Proof

/-! ### The bytes and results, as the driver's statements write them -/

/-- SETBIT keeps every bit that it does not address (R83). -/
theorem setBit_getLsbD_of_ne (a c : Byte) (f : Bool) {i : Nat} (hi : i < 8) (hc : i ≠ c.toNat) :
    (setBit a c f).getLsbD i = a.getLsbD i :=
  (setBit_getLsbD a c f hi).trans (if_neg hc)

/-- The byte of R81 in arithmetic. -/
theorem encSixty_false_toNat (v : Byte) :
    (encSixty false v).toNat = v.toNat / 10 % 8 * 0x10 + v.toNat % 10 := by
  simpa using encSixty_toNat false v

/-- The byte of R82 in arithmetic, both layouts. -/
theorem encHours_toNat (v : Byte) (f : Bool) : (encHours v f).toNat =
    if f then 0x40 + (if v.toNat > 12 then 1 else 0) * 0x20 + v.toNat / 10 % 2 * 0x10 + v.toNat % 10
    else v.toNat / 10 % 4 * 0x10 + v.toNat % 10 := by
  cases f with
  | true => exact encHours_twelve_toNat v
  | false => exact encHours_twentyFour_toNat v

/-- DECHRS's result in arithmetic, both layouts (R73). -/
theorem decHours_eq (b : Byte) : decHours b = BitVec.ofNat 24 (if b.toNat / 64 % 2 = 1 then
      0x20 + b.toNat / 32 % 2 * 0x10 + (b.toNat / 16 % 2 * 10 + b.toNat % 16) % 16
    else b.toNat / 16 % 4 * 10 + b.toNat % 16) := by
  rcases Nat.mod_two_eq_zero_or_one (b.toNat / 64) with h | h
  · rw [decHours_eq_of_twentyFour h, if_neg (by omega)]
  · rw [decHours_eq_of_twelve h, if_pos h]

end Sys2Proof.Machine

namespace Sys2Proof.Machine.Driver

open Sys2Proof Sys2Proof.Machine

/-! ### Register reads and writes -/

/-- What RD leaves on record (R91). -/
def readEvents (reg b : Byte) : List Event :=
  [.busOpen Config.machine.rtcDevAddr Config.machine.modeWrite .ok, .writeByte reg,
   .busOpen Config.machine.rtcDevAddr Config.machine.modeRead .ok, .readByteNoAck b, .busClose]

/-- What WR leaves on record (R92). -/
def writeEvents (reg v : Byte) : List Event :=
  [.busOpen Config.machine.rtcDevAddr Config.machine.modeWrite .ok, .writeByte reg, .writeByte v, .busClose]

theorem rd_run {sys : System} {b : Byte} {rest : List Answer} (reg : Byte)
    (h : sys.answers = .opened :: .opened :: .byte b :: rest) :
    (rd reg).run sys =
      .ok (b, { sys with answers := rest, trace := sys.trace ++ readEvents reg b }) := by
  rw [rd, run_bind_ok (busOpenPresent_run_opened _ h), run_bind_ok (writeByte_run ..),
    run_bind_ok (busOpenPresent_run_opened _ rfl), run_bind_ok (readByteNoAck_run rfl),
    run_bind_ok (busClose_run _), pure_run]
  simp only [List.append_assoc, List.cons_append, List.nil_append, readEvents]

theorem wr_run {sys : System} {rest : List Answer} (reg v : Byte) (h : sys.answers = .opened :: rest) :
    (wr reg v).run sys =
      .ok ((), { sys with answers := rest, trace := sys.trace ++ writeEvents reg v }) := by
  rw [wr, run_bind_ok (busOpenPresent_run_opened _ h), run_bind_ok (writeByte_run ..),
    run_bind_ok (writeByte_run ..), busClose_run]
  simp only [List.append_assoc, List.cons_append, List.nil_append, writeEvents]

/-! ### Presented commands -/

/-- A command that drives a result leaves its word and its outputs on record (R50, R52). -/
theorem issue_run {sys : System} {i : Instr} {v : Res}
    (h : exec i sys.block = .next (deliver v sys.block)) :
    (issue i).run sys = .ok ({ res := v, ill := false }, { sys with
      block := deliver v sys.block
      trace := sys.trace ++ [.command (encode i) { res := v, ill := false }] }) :=
  issueWord_run ((accept_of_decode (decode_encode i) _).trans h) (deliver_out v sys.block)

/-- The register byte that an encode operation drives (R53). -/
theorem resByte_zextByte (v : Byte) : resByte { res := zextByte v, ill := false } = v :=
  setWidth_zextByte v

/-! ### The shapes of the register sequences -/

section Shapes

variable {sys : System} {b : Byte} {rest : List Answer}

/-- Read a register, then let the block decode the byte: GETSEC, GETMIN, GETHRS. -/
theorem read_then_issue_run {i : Byte → Instr} {v : Res} (reg : Byte) (hp : sys.probed = true)
    (ha : sys.answers = .opened :: .opened :: .byte b :: rest)
    (hi : ∀ s, exec (i b) s = .next (deliver v s)) :
    StateT.run (do
      afterProbe
      let b ← rd reg
      let o ← issue (i b)
      return Result.value o.res) sys = .ok (.value v, { sys with
        block := deliver v sys.block
        answers := rest
        trace := sys.trace ++ readEvents reg b ++
          [.command (encode (i b)) { res := v, ill := false }] }) := by
  rw [run_bind_ok (afterProbe_run_probed hp), run_bind_ok (rd_run reg ha), run_bind_ok (issue_run (hi _)),
    pure_run]

/-- Let the block encode a byte, then write it to a register: SETSEC, SETMIN, SETHRS. -/
theorem issue_then_write_run {i : Instr} {v : Byte} (reg : Byte) (hp : sys.probed = true)
    (ha : sys.answers = .opened :: rest)
    (hi : ∀ s, exec i s = .next (deliver (zextByte v) s)) :
    StateT.run (do
      afterProbe
      let o ← issue i
      wr reg (resByte o)
      return Result.done) sys = .ok (.done, { sys with
        block := deliver (zextByte v) sys.block
        answers := rest
        trace := sys.trace ++ [.command (encode i) { res := zextByte v, ill := false }] ++
          writeEvents reg v }) := by
  rw [run_bind_ok (afterProbe_run_probed hp), run_bind_ok (issue_run (hi _)), resByte_zextByte,
    run_bind_ok (wr_run reg v ?_), pure_run]
  exact ha

/-- Write a byte to a register as it is: SETCTL, SETTRIM. -/
theorem write_run (reg v : Byte) (hp : sys.probed = true) (ha : sys.answers = .opened :: rest) :
    StateT.run (do
      afterProbe
      wr reg v
      return Result.done) sys = .ok (.done, { sys with
        answers := rest
        trace := sys.trace ++ writeEvents reg v }) := by
  rw [run_bind_ok (afterProbe_run_probed hp), run_bind_ok (wr_run _ _ ha), pure_run]

/-- Read a register, force one bit, write the byte back, and go on: PROBE and SETVBAT (R93, R102). -/
theorem forceBit_run {α : Type} (reg index : Byte) (enabled : Bool) (next : Run α)
    (ha : sys.answers = .opened :: .opened :: .byte b :: .opened :: rest) :
    StateT.run (do
      let s ← rd reg
      let o ← issue (.setbit s index enabled)
      wr reg (resByte o)
      next) sys = next.run { sys with
        block := deliver (zextByte (setBit b index enabled)) sys.block
        answers := rest
        trace := sys.trace ++ readEvents reg b ++
          [.command (encode (.setbit b index enabled))
            { res := zextByte (setBit b index enabled), ill := false }] ++
          writeEvents reg (setBit b index enabled) } := by
  rw [run_bind_ok (rd_run reg ha), run_bind_ok (issue_run (exec_setbit b index enabled _)),
    run_bind_ok (wr_run _ _ rfl), resByte_zextByte]

end Shapes

/-! ### Handing the buffer over -/

/-- One entry handed over: its LEDRD, and its triple (R104). -/
def handOverEvents (led : Vector Color 128) (i : Fin 128) : List Event :=
  [.command (0xB0000000#32 + BitVec.ofNat 32 (i.val * 0x10000)) { res := led[i], ill := false },
   .sendLed (led[i].extractLsb' 16 8) (led[i].extractLsb' 8 8) (led[i].extractLsb' 0 8)]

theorem exec_ledrd_of_fin (i : Fin 128) (s : State) :
    exec (.ledrd (BitVec.ofNat 8 i)) s = .next (deliver s.led[i] s) := by
  have hi : (BitVec.ofNat 8 i).toNat = i := Nat.mod_eq_of_lt (i.isLt.trans (by decide))
  have hin : LedInBuffer (BitVec.ofNat 8 i) := hi.trans_lt i.isLt
  rw [exec_ledrd hin, ledRead, show (⟨_, hin⟩ : Fin 128) = i from Fin.ext hi]

theorem handOver_run (i : Fin 128) (sys : System) :
    (handOver (BitVec.ofNat 8 i)).run sys = .ok ((), { sys with
      block := deliver sys.block.led[i] sys.block
      trace := sys.trace ++ handOverEvents sys.block.led i }) := by
  rw [handOver, run_bind_ok (issue_run (exec_ledrd_of_fin i sys.block)), emit_run, encode_ledrd]
  simp only [List.append_assoc, List.cons_append, List.nil_append, handOverEvents]

/-- The listed entries go over in order, and the outputs of the last one's LEDRD remain. -/
theorem handOverAll_run (is : List (Fin 128)) (last : Fin 128) (sys : System) :
    (handOverAll ((is ++ [last]).map Fin.val)).run sys = .ok ((), { sys with
      block := deliver sys.block.led[last] sys.block
      trace := sys.trace ++ (is ++ [last]).flatMap (handOverEvents sys.block.led) }) := by
  induction is generalizing sys with
  | nil =>
    rw [List.nil_append, List.map_singleton, handOverAll, run_bind_ok (handOver_run last sys),
      List.flatMap_singleton]
    rfl
  | cons i is ih =>
    rw [List.cons_append, List.map_cons, handOverAll, run_bind_ok (handOver_run i sys), ih,
      List.flatMap_cons, ← List.append_assoc]
    rfl

/-! ### The obligations -/

/-- Settles O40: the five primitives of `rd_run`. -/
theorem rdReadsOneByte : Obligations.RdReadsOneByte := fun reg _ _ _ h => rd_run reg h

/-- Settles O41: the four primitives of `wr_run`. -/
theorem wrWritesOneByte : Obligations.WrWritesOneByte := fun reg v _ _ h => wr_run reg v h

/-- Settles O42: after the first `open`, PROBE forces bit 7 of register 0x00, or returns the code. -/
theorem probeSetsTheOscillatorBit : Obligations.ProbeSetsTheOscillatorBit := by
  refine ⟨fun b sys rest h => ⟨setBit b 7#8 true, setBit_getLsbD b _ _ (by decide), fun i hi =>
    setBit_getLsbD_of_ne b 7#8 true (by omega) (Nat.ne_of_lt hi), ?_⟩, fun code sys rest h => ?_⟩
  · rw [runOp, probe, run_bind_ok (busOpen_run_opened _ h)]
    dsimp only
    rw [run_bind_ok (busClose_run _), forceBit_run _ _ _ _ rfl, run_bind_ok (noteProbe_run ..), pure_run,
      encode_setbit_seven, zextByte_eq]
    simp only [readEvents, writeEvents, List.append_assoc, List.cons_append, List.nil_append]
    rfl
  · rw [runOp, probe, run_bind_ok (busOpen_run_failed _ h)]
    rfl

/-- Settles O43: each GET sequence reads, and the block decodes the byte. -/
theorem getSequencesDecodeTheAnsweredByte : Obligations.GetSequencesDecodeTheAnsweredByte := by
  intro b sys rest hp ha reads sixty hours
  have hsixty : zextNat (decSixty b) = sixty := congrArg zextNat (decSixty_eq b)
  refine ⟨?_, ?_, ?_, ?_⟩
  · rw [← hsixty, ← encode_decsec]
    exact read_then_issue_run 0x00#8 hp ha (exec_decsec b)
  · rw [← hsixty, ← encode_decmin]
    exact read_then_issue_run 0x01#8 hp ha (exec_decmin b)
  · rw [show hours = decHours b from (decHours_eq b).symm, ← encode_dechrs]
    exact read_then_issue_run 0x02#8 hp ha (exec_dechrs b)
  · rw [runOp, getctl, run_bind_ok (afterProbe_run_probed hp), run_bind_ok (rd_run _ ha)]
    rfl

/-- Settles O44: the block encodes the byte, and each SET sequence writes it. -/
theorem setSequencesWriteTheEncodedByte : Obligations.SetSequencesWriteTheEncodedByte := by
  intro v f sys rest hp ha
  simp only [← encSixty_toNat, ← encSixty_false_toNat, ← encHours_toNat,
    BitVec.ofNat_toNat, BitVec.setWidth_eq]
  exact ⟨issue_then_write_run 0x00#8 hp ha (exec_encsec v f),
    issue_then_write_run 0x01#8 hp ha (exec_encmin v),
    issue_then_write_run 0x02#8 hp ha (exec_enchrs v f),
    write_run 0x07#8 v hp ha, write_run 0x08#8 v hp ha⟩

/-- Settles O45: SETVBAT forces bit 3 of register 0x03, and SETBIT keeps every other bit. -/
theorem setvbatPreservesTheOtherBits : Obligations.SetvbatPreservesTheOtherBits := by
  intro en b sys rest hp ha
  have hkept : ∀ i, i < 8 → i ≠ 3 → (setBit b 3#8 en).getLsbD i = b.getLsbD i := fun _ =>
    setBit_getLsbD_of_ne b 3#8 en
  refine ⟨setBit b 3#8 en, setBit_getLsbD b _ _ (by decide), hkept 5 (by decide) (by decide),
    hkept 4 (by decide) (by decide), hkept, ?_⟩
  rw [runOp, setvbat, run_bind_ok (afterProbe_run_probed hp), forceBit_run _ _ _ _ ha, pure_run,
    zextByte_eq]
  simp only [readEvents, writeEvents, List.append_assoc, List.cons_append, List.nil_append]
  rfl

/-- Settles O46: the entries 0 to 126 and then 127, each handed over by `handOver_run`. -/
theorem flushHandsOverTheBufferInOrder : Obligations.FlushHandsOverTheBufferInOrder := by
  intro sys
  have hindices : List.range 128 =
      ((List.finRange 127).map Fin.castSucc ++ [Fin.last 127]).map Fin.val := by
    rw [← List.finRange_succ_last]
    exact List.map_coe_finRange_eq_range.symm
  rw [runOp, flush, run_bind_ok (suspendEvents_run ..), hindices, run_bind_ok (handOverAll_run ..),
    run_bind_ok (suspendEvents_run ..), ← List.finRange_succ_last]
  rfl

end Sys2Proof.Machine.Driver
end

section
/-! SUPPORT. The family RENDER unit (43_glyph_render.md): the glyph ROM as GLYPH shows it (R111, R115), the
frame's entries by zone and by index (R116, R117), the count of lit entries (R119), and LEDRD (R118). -/

namespace Sys2Proof.Machine

open Sys2Proof

/-! ### SPLIT -/

/-- R114 in arithmetic. -/
theorem splitValue_eq (a : Byte) :
    splitValue a = BitVec.ofNat 24 (a.toNat / 10 * 0x100 + a.toNat % 10) := by
  have htens := tensOf_lt a
  have hones := onesOf_lt a
  change _ = BitVec.ofNat 24 (tensOf a * 0x100 + onesOf a)
  rw [← BitVec.toNat_inj, splitValue, BitVec.toNat_setWidth, toNat_append_add]
  simp only [BitVec.toNat_ofNat]
  omega

/-- Settles O15, by `splitValue_eq` and the row of `op` 8. -/
theorem splitGivesTensAndOnes : Obligations.SplitGivesTensAndOnes := by
  refine ⟨fun a s => ?_, fun w hw => ?_⟩
  · rw [← splitValue_eq]
    exact exec_split a s
  · obtain ⟨hd, hop⟩ := decode_of_matches_row (op := 0x8#4) hw
    simp [hd, decodeOp, hop, aField]

/-! ### GLYPH and the ROM -/

/-- A byte that spells an index below 256 reads back as it. -/
theorem toNat_byte_of_fin {n : Nat} (hn : n ≤ 2 ^ 8) (i : Fin n) : (BitVec.ofNat 8 i).toNat = i :=
  Nat.mod_eq_of_lt (i.isLt.trans_le hn)

/-- Inside the table GLYPH delivers the ROM bit as 0 or 1 (R115). -/
theorem delivers_glyph {digit index : Byte} {d : Fin 10} {k : Nat} (hd : digit.toNat = d)
    (hi : index.toNat = k) (hk : k < 20) (s : State) :
    Delivers (.glyph digit index) s (if glyphBit Config.machine d k then 1#24 else 0#24) := by
  have hin : GlyphInTable digit index := ⟨hd.trans_lt d.isLt, hi.trans_lt hk⟩
  have hdigit : (⟨digit.toNat, hin.1⟩ : Fin 10) = d := Fin.ext hd
  rw [Delivers, exec_glyph hin, hdigit, hi]
  cases glyphBit Config.machine d k <;> rfl

/-- R111 (a). -/
theorem glyphBit_eight (cfg : Config) {k : Nat} (hk : k < 20) : glyphBit cfg 8 k = true := by
  rw [glyphBit, cfg.glyphRom_eight]
  exact (BitVec.getLsbD_allOnes (v := 20)).trans (decide_eq_true hk)

/-- R111 (b). -/
theorem exists_glyphBit_one_eq_false (cfg : Config) : ∃ k < 20, glyphBit cfg 1 k = false := by
  by_contra hall
  simp only [not_exists, not_and, Bool.not_eq_false] at hall
  refine cfg.glyphRom_one (BitVec.eq_of_getLsbD_eq fun k hk => ?_)
  rw [← cfg.glyphRom_eight]
  exact (hall k hk).trans (glyphBit_eight cfg hk).symm

/-- Settles O16, by `delivers_glyph`, the refusal outside the table, and the row of `op` 9. -/
theorem glyphReadsRomBit : Obligations.GlyphReadsRomBit := by
  refine ⟨fun d k s => ?_, fun a c s hout => exec_glyph_refused (by omega) s, fun w hw => ?_⟩
  · have hg := delivers_glyph (toNat_byte_of_fin (by decide) d) (toNat_byte_of_fin (by decide) k) k.isLt s
    rwa [glyphBit, BitVec.getLsbD_eq_getElem k.isLt] at hg
  · obtain ⟨hd, hop⟩ := decode_of_matches_row (op := 0x9#4) hw
    simp [hd, decodeOp, hop, aField, cField]

/-- Settles O17: the two constraints on the ROM, read through `delivers_glyph`. -/
theorem digitEightAllLitDigitOneNot : Obligations.DigitEightAllLitDigitOneNot := by
  refine fun s => ⟨fun k hk => ?_, ?_⟩
  · simpa [glyphBit_eight _ hk] using delivers_glyph (d := 8) (digit := 8#8) rfl rfl hk s
  · obtain ⟨k, hk, hbit⟩ := exists_glyphBit_one_eq_false Config.machine
    have hindex : (BitVec.ofNat 8 k).toNat = k := toNat_byte_of_fin (by decide) ⟨k, hk⟩
    refine ⟨BitVec.ofNat 8 k, hindex.trans_lt hk, ?_⟩
    simpa [hbit] using delivers_glyph (d := 1) (digit := 1#8) rfl hindex hk s

/-! ### The entries of a frame -/

/-- Zone `z` shows the digit `d` of the time `h`, `m`, `x` (R112, R116). -/
def ShowsDigit (h m x : Byte) (z : Zone) (d : Fin 10) : Prop :=
  z = .ht ∧ d.val = h.toNat / 10 ∨ z = .ho ∧ d.val = h.toNat % 10
    ∨ z = .mt ∧ d.val = m.toNat / 10 ∨ z = .mo ∧ d.val = m.toNat % 10
    ∨ z = .st ∧ d.val = x.toNat / 10 ∨ z = .so ∧ d.val = x.toNat % 10

/-- A digit zone has twenty places, lit by the glyph of its digit. -/
theorem ShowsDigit.zone {h m x : Byte} {z : Zone} {d : Fin 10} (hz : ShowsDigit h m x z d)
    (cfg : Config) (f : Bool) (ok : TimeInTable h m x) :
    z.len = 20 ∧ ∀ k, zoneLit cfg (shownOf h m x f ok) z k = glyphBit cfg d k := by
  rcases hz with ⟨rfl, hd⟩ | ⟨rfl, hd⟩ | ⟨rfl, hd⟩ | ⟨rfl, hd⟩ | ⟨rfl, hd⟩ | ⟨rfl, hd⟩ <;>
    exact ⟨rfl, fun k => congrArg (glyphBit cfg · k) (Fin.ext hd.symm)⟩

/-- Settles O18: RENDER's equation, with the whole frame of `isFrame_renderFrame` read zone by zone, the
refusal of a field of 100 or more, and the row of `op` 10. -/
theorem renderWritesTheFrame : Obligations.RenderWritesTheFrame := by
  refine ⟨fun h m x f s dh dm dx => ?_, fun h m x f s hout => exec_render_refused f (by omega) s,
    fun w hw => ?_⟩
  · have ok : TimeInTable h m x := ⟨dh, dm, dx⟩
    have frame := isFrame_renderFrame Config.machine (advancePhase s.phase) (shownOf h m x f ok) s.led
    refine ⟨_, exec_render f ok s, ?_, renderState_out .., renderState_cmds .., fun z d k hz => ?_,
      fun k => ?_⟩
    · rw [renderState_phase, advancePhase_toNat]
    · obtain ⟨hlen, hlit⟩ := ShowsDigit.zone hz Config.machine f ok
      have entry := frame z k (k.isLt.trans_eq hlen.symm)
      rwa [hlit, glyphBit, BitVec.getLsbD_eq_getElem k.isLt] at entry
    · exact frame .colon k k.isLt
  · obtain ⟨hd, hop⟩ := decode_of_matches_row (op := 0xA#4) hw
    simp [hd, decodeOp, hop, aField, bField, cField, fField]

/-- R117, last sentence, at one place of one zone. -/
theorem renderFrame_getElem_eq_black_iff (cfg : Config) (p : Phase) (t : Shown) (led : Vector Color 128)
    {z : Zone} {k : Nat} (hk : k < z.len) :
    (renderFrame cfg p t led)[cfg.zoneBase z + k]'(cfg.zone_index_lt hk) = 0#24 ↔
      zoneLit cfg t z k = false := by
  rw [renderFrame_getElem cfg p t led hk, ledColor_eq_black_iff]

/-- The buffer that an accepted RENDER leaves. -/
theorem led_of_exec_render {h m x : Byte} {f : Bool} {s t : State} (ok : TimeInTable h m x)
    (ht : exec (.render h m x f) s = .next t) :
    t.led = renderFrame Config.machine (advancePhase s.phase) (shownOf h m x f ok) s.led := by
  obtain rfl := Host.Outcome.next.inj ((exec_render f ok s).symm.trans ht)
  exact renderState_led ..

/-- Settles O20: the place of an index is unique, and its entry is black exactly when it is unlit. -/
theorem entryBlackExactlyWhenUnlit : Obligations.EntryBlackExactlyWhenUnlit := by
  intro h m x f s t ok ht i
  obtain ⟨z, k, hk, hi⟩ := Config.machine.exists_zone_place i.isLt
  refine ⟨z, k, hk, hi, fun z' k' hk' hi' => Config.machine.zone_place_unique hk' hk (hi'.trans hi.symm), ?_⟩
  obtain rfl : ⟨_, Config.machine.zone_index_lt hk⟩ = i := Fin.ext hi
  rw [led_of_exec_render ok ht]
  exact renderFrame_getElem_eq_black_iff _ _ _ _ hk

/-! ### 88:88:88 -/

/-- Every place of every zone is lit: six times the full glyph, and the colon. -/
theorem zoneLit_eights (cfg : Config) (ok : TimeInTable 88#8 88#8 88#8) {z : Zone} {k : Nat}
    (hk : k < z.len) : zoneLit cfg (shownOf 88#8 88#8 88#8 true ok) z k = true := by
  cases z with
  | colon => rfl
  | ht | ho | mt | mo | st | so => exact glyphBit_eight cfg hk

/-- Settles O21: each index is a place of a zone (R112), which the time lights. -/
theorem allEightsLightEveryLed : Obligations.AllEightsLightEveryLed := by
  intro s
  have ok : TimeInTable 88#8 88#8 88#8 := by decide
  refine ⟨_, exec_render true ok s, ?_, fun i => ?_⟩
  · rw [renderState_phase]
    exact advancePhase_toNat s.phase
  · obtain ⟨z, k, hk, hi⟩ := Config.machine.exists_zone_place i.isLt
    obtain rfl : ⟨_, Config.machine.zone_index_lt hk⟩ = i := Fin.ext hi
    have entry := renderFrame_getElem Config.machine (advancePhase s.phase) (shownOf _ _ _ true ok) s.led hk
    rw [zoneLit_eights _ ok hk] at entry
    rw [renderState_led]
    refine ⟨entry.trans ?_, entry.trans_ne (by simp [ledColor_eq_black_iff])⟩
    rw [ledColor_lit, advancePhase_toNat]
    refine congrArg Config.machine.color (BitVec.eq_of_toNat_eq ?_)
    rw [BitVec.toNat_ofNat, BitVec.toNat_ofNat, Nat.mod_add_mod]

/-! ### The number of lit entries -/

/-- The LED indices of a zone (R112). -/
def zoneIndices (cfg : Config) (z : Zone) : List Nat := (List.range z.len).map (cfg.zoneBase z + ·)

theorem mem_zoneIndices (cfg : Config) (z : Zone) (i : Nat) :
    i ∈ zoneIndices cfg z ↔ ∃ k < z.len, cfg.zoneBase z + k = i := by
  simp [zoneIndices]

theorem nodup_zoneIndices (cfg : Config) (z : Zone) : (zoneIndices cfg z).Nodup :=
  List.nodup_range.map (add_right_injective _)

theorem disjoint_zoneIndices (cfg : Config) {z z' : Zone} (hz : z ≠ z') :
    List.Disjoint (zoneIndices cfg z) (zoneIndices cfg z') := by
  intro i hi hi'
  obtain ⟨k, hk, rfl⟩ := (mem_zoneIndices ..).1 hi
  obtain ⟨k', hk', heq⟩ := (mem_zoneIndices ..).1 hi'
  exact hz (cfg.zone_place_unique hk hk' heq.symm).1

/-- R112: the zones are a partition of the buffer's indices. -/
theorem flatMap_zoneIndices_perm (cfg : Config) :
    (zoneOrder.flatMap (zoneIndices cfg)).Perm (List.range 128) := by
  have horder : zoneOrder.Nodup := by decide
  have hnodup : (zoneOrder.flatMap (zoneIndices cfg)).Nodup :=
    List.nodup_flatMap.2 ⟨fun z _ => nodup_zoneIndices cfg z, horder.imp (disjoint_zoneIndices cfg)⟩
  refine (List.perm_ext_iff_of_nodup hnodup List.nodup_range).2 fun i => ?_
  simp only [List.mem_flatMap, mem_zoneIndices, List.mem_range]
  constructor
  · rintro ⟨z, -, k, hk, rfl⟩
    exact cfg.zone_index_lt hk
  · intro hi
    obtain ⟨z, k, hk, heq⟩ := cfg.exists_zone_place hi
    exact ⟨z, mem_zoneOrder z, k, hk, heq⟩

/-- The buffer's entries by their indices. -/
theorem toList_eq_map_range (led : Vector Color 128) :
    led.toList = (List.range 128).map fun i => led[i]?.getD 0#24 := by
  apply List.ext_getElem
  · simp
  · intro i hi _
    have hin : i < 128 := by simpa using hi
    simp [hin]

/-- Counting a frame's lit entries over the partition gives the zones' lit places (R119). -/
theorem countP_lit_renderFrame (cfg : Config) (p : Phase) (t : Shown) (led : Vector Color 128) :
    (renderFrame cfg p t led).toList.countP (fun v => v ≠ 0#24) =
      (zoneOrder.map fun z => (List.range z.len).countP (zoneLit cfg t z)).sum := by
  rw [toList_eq_map_range, List.countP_map, ← (flatMap_zoneIndices_perm cfg).countP_eq, List.countP_flatMap]
  congr 1
  refine List.map_congr_left fun z _ => ?_
  rw [Function.comp_apply, zoneIndices, List.countP_map]
  refine List.countP_congr fun k hk => ?_
  have hplace := cfg.zone_index_lt (List.mem_range.1 hk)
  simp [hplace, renderFrame_getElem_eq_black_iff cfg p t led (List.mem_range.1 hk)]

theorem tensDigit_eq {v : Byte} (h : v.toNat < 100) : tensDigit v h = Fin.ofNat 10 (v.toNat / 10) :=
  Fin.ext (Nat.mod_eq_of_lt (tensDigit v h).isLt).symm

theorem onesDigit_eq (v : Byte) : onesDigit v = Fin.ofNat 10 (v.toNat % 10) :=
  Fin.ext (Nat.mod_mod _ _).symm

/-- Settles O19: the six digit zones count their glyphs' bits, and the colon zone counts 8 or 0. -/
theorem frameLightsExactlyTheGlyphBits : Obligations.FrameLightsExactlyTheGlyphBits := by
  intro h m x f s t dh dm dx ht
  have hcolon : (List.range 8).countP (fun _ => f) = if f then 8 else 0 := by cases f <;> rfl
  rw [led_of_exec_render ⟨dh, dm, dx⟩ ht, countP_lit_renderFrame, ← hcolon]
  simp only [List.map_cons, List.map_nil, List.sum_cons, List.sum_nil, ← onesDigit_eq,
    ← tensDigit_eq dh, ← tensDigit_eq dm, ← tensDigit_eq dx, zoneOrder, add_assoc, add_zero]
  rfl

/-! ### LEDRD -/

/-- Settles O23, by LEDRD's equation, the refusal from 128 on, and the row of `op` 11. -/
theorem ledrdReadsTheBuffer : Obligations.LedrdReadsTheBuffer := by
  refine ⟨Driver.exec_ledrd_of_fin, fun c s hout => exec_ledrd_refused (Nat.not_lt.2 hout) s,
    fun w hw => ?_⟩
  obtain ⟨hd, hop⟩ := decode_of_matches_row (op := 0xB#4) hw
  simp [hd, decodeOp, hop, cField]

/-- Commands run one after the other, none of them a RENDER, leave the buffer as it is. -/
theorem led_of_foldlM_not_render {run : State → Instr → Option State}
    (hrun : ∀ u j u', run u j = some u' → exec j u = .next u') {is : List Instr}
    (his : ∀ j ∈ is, ∀ h m x f, j ≠ .render h m x f) {s t : State} (hst : is.foldlM run s = some t) :
    t.led = s.led := by
  induction is generalizing s with
  | nil => exact congrArg State.led (Option.some_inj.1 hst).symm
  | cons j is ih =>
    rw [List.forall_mem_cons] at his
    obtain ⟨hj, his⟩ := his
    obtain ⟨u, hu, hut⟩ := Option.bind_eq_some_iff.1 (List.foldlM_cons.symm.trans hst)
    obtain ⟨u', hu', -, hled, -⟩ := exists_exec_frame_of_not_render hj s
    obtain rfl := Host.Outcome.next.inj (hu'.symm.trans (hrun s j u hu))
    rw [ih his hut, hled]

/-- Settles O24: the commands between leave the buffer, and LEDRD delivers its entry. -/
theorem ledrdReadsTheUnchangedEntry : Obligations.LedrdReadsTheUnchangedEntry := by
  intro is i s t his hst
  have hled : t.led = s.led := by
    refine led_of_foldlM_not_render (fun u j u' hu => ?_) his hst
    split at hu
    · next he => rw [he, Option.some_inj.1 hu]
    · cases hu
    · cases hu
  rw [computes_of_delivers (Driver.exec_ledrd_of_fin i t), hled]

end Sys2Proof.Machine
end

section
/-! SUPPORT. The family exceptions (60_exceptions.md): what a step does with a refused word, by whichever of
the cases (a) to (e) of R56 the word is refused (R135). -/

namespace Sys2Proof.Machine

open Sys2Proof

/-- A refused word spells no command, or one that is not well formed; a step refuses it either way (R56). -/
theorem step_of_refusedWord {s : State} {w : Word} {rest : List Word} (hs : s.cmds = w :: rest)
    (hw : RefusedWord w) : step s = .next (refuseCommand { s with cmds := rest }) := by
  cases hd : decode w with
  | error why => exact step_of_decode_error hs hd
  | ok i =>
    have hi := (refusedWord_iff_of_decode hd).1 hw
    exact (step_of_decode hs hd).trans (exec_of_not_wellFormed hi _)

/-- Settles O29: the state after a refused word does not depend on the word. -/
theorem everyRefusalLooksTheSame : Obligations.EveryRefusalLooksTheSame := by
  intro w w' rest s hw hw'
  have hrefuse : ∀ {v : Word}, RefusedWord v →
      step { s with cmds := v :: rest } = .next (refuseCommand { s with cmds := rest }) :=
    fun hv => step_of_refusedWord rfl hv
  exact (hrefuse hw).trans (hrefuse hw').symm

end Sys2Proof.Machine
end

section
/-! SUPPORT. The family reset and hazards (70_reset_and_hazards.md): where a register operation stops when no
PROBE has returned Ok, or when its first `open` fails (R154, R105, U8). -/

namespace Sys2Proof.Machine.Driver

open Sys2Proof Sys2Proof.Machine

/-- The sequence meets an `open` before it asks for any other answer, and stops when that `open` fails. -/
def StopsAtFailedOpen {α : Type} (x : Run α) : Prop :=
  ∀ {sys : System} {code : Nat} {rest : List Answer}, sys.answers = .openFailed code :: rest →
    x.run sys = .error (.deviceLost code)

theorem stopsAtFailedOpen_bind {α β : Type} {x : Run α} {f : α → Run β} (hx : StopsAtFailedOpen x) :
    StopsAtFailedOpen (x >>= f) :=
  fun h => run_bind_error (hx h)

theorem stopsAtFailedOpen_rd (reg : Byte) : StopsAtFailedOpen (rd reg) :=
  stopsAtFailedOpen_bind (busOpenPresent_run_failed _)

theorem stopsAtFailedOpen_wr (reg v : Byte) : StopsAtFailedOpen (wr reg v) :=
  stopsAtFailedOpen_bind (busOpenPresent_run_failed _)

/-- A command that the block answers takes no answer of the environment, so the `open` after it is still
the first. -/
theorem stopsAtFailedOpen_issue_bind {β : Type} {i : Instr} {v : Res} {f : Output → Run β}
    (hi : ∀ s, exec i s = .next (deliver v s)) (hf : ∀ o, StopsAtFailedOpen (f o)) :
    StopsAtFailedOpen (issue i >>= f) := by
  intro sys code rest h
  rw [run_bind_ok (issue_run (hi _))]
  exact hf _ h

/-- The sequence is guarded as R154 asks, and what follows the guard stops at a failing first `open`. -/
def OpensAfterProbe (x : Run Result) : Prop :=
  ∃ body : Run Result, x = (do afterProbe; body) ∧ StopsAtFailedOpen body

theorem OpensAfterProbe.run_unprobed {x : Run Result} {sys : System} (hx : OpensAfterProbe x)
    (hp : sys.probed = false) : x.run sys = .error .beforeProbe := by
  obtain ⟨body, rfl, -⟩ := hx
  exact run_bind_error (afterProbe_run_unprobed hp)

theorem OpensAfterProbe.run_openFailed {x : Run Result} {sys : System} {code : Nat} {rest : List Answer}
    (hx : OpensAfterProbe x) (hp : sys.probed = true) (ha : sys.answers = .openFailed code :: rest) :
    x.run sys = .error (.deviceLost code) := by
  obtain ⟨body, rfl, hbody⟩ := hx
  rw [run_bind_ok (afterProbe_run_probed hp)]
  exact hbody ha

/-- The ten register operations (R94 to R103). -/
def IsRegisterOp (op : HostOp) : Prop :=
  op = .getsec ∨ op = .getmin ∨ op = .gethrs ∨ (∃ v f, op = .setsec v f) ∨ (∃ v, op = .setmin v)
    ∨ (∃ v f, op = .sethrs v f) ∨ op = .getctl ∨ (∃ v, op = .setctl v) ∨ (∃ f, op = .setvbat f)
    ∨ ∃ v, op = .settrim v

/-- After the guard, a register operation reads, writes, or has the block encode a byte and writes it. -/
theorem IsRegisterOp.opensAfterProbe {op : HostOp} (hop : IsRegisterOp op) :
    OpensAfterProbe (runOp op) := by
  have hread (reg : Byte) {f : Byte → Run Result} : StopsAtFailedOpen (rd reg >>= f) :=
    stopsAtFailedOpen_bind (stopsAtFailedOpen_rd reg)
  have hwrite (reg v : Byte) {f : Unit → Run Result} : StopsAtFailedOpen (wr reg v >>= f) :=
    stopsAtFailedOpen_bind (stopsAtFailedOpen_wr reg v)
  rcases hop with rfl | rfl | rfl | ⟨v, f, rfl⟩ | ⟨v, rfl⟩ | ⟨v, f, rfl⟩ | rfl | ⟨v, rfl⟩ |
    ⟨f, rfl⟩ | ⟨v, rfl⟩
  · exact ⟨_, rfl, hread _⟩
  · exact ⟨_, rfl, hread _⟩
  · exact ⟨_, rfl, hread _⟩
  · exact ⟨_, rfl, stopsAtFailedOpen_issue_bind (exec_encsec v f) fun _ => hwrite _ _⟩
  · exact ⟨_, rfl, stopsAtFailedOpen_issue_bind (exec_encmin v) fun _ => hwrite _ _⟩
  · exact ⟨_, rfl, stopsAtFailedOpen_issue_bind (exec_enchrs v f) fun _ => hwrite _ _⟩
  · exact ⟨_, rfl, hread _⟩
  · exact ⟨_, rfl, hwrite _ _⟩
  · exact ⟨_, rfl, hread _⟩
  · exact ⟨_, rfl, hwrite _ _⟩

/-- Settles O47: the guard stops the operation, or after it the first `open` does. -/
theorem registerOperationsNeedASuccessfulProbe : Obligations.RegisterOperationsNeedASuccessfulProbe :=
  ⟨fun _ _ hp hop => (IsRegisterOp.opensAfterProbe hop).run_unprobed hp,
    fun _ _ _ _ hp ha hop => (IsRegisterOp.opensAfterProbe hop).run_openFailed hp ha⟩

end Sys2Proof.Machine.Driver
end

section
/-! SUPPORT. The family other: a step with no command presented, which is the model's choice (log 1). -/

namespace Sys2Proof.Machine

open Sys2Proof

/-- Settles O36: by `step_of_nil` the step idles, and idling clears the outputs alone. -/
theorem noCommandNoEffect : Obligations.NoCommandNoEffect :=
  fun _ hs => step_of_nil hs

end Sys2Proof.Machine
end
